-- ==== Sys2Proof/Word.lean ====
section
/-! DEFINITION. The word types: data words and instruction words (10_state.md R23, 30_encoding.md R60),
register numbers and condition selectors (30_encoding.md R62). -/

namespace Sys2Proof

/-- A data register's value, and an instruction word: 24 bits (R23, R60; logs 1 and 3). -/
abbrev Word := BitVec 24

/-- A data register's number, 0 to 15: what the 4-bit fields `DRt` and `DRs` can name (R22; log 2). -/
abbrev RegNum := Fin 16

/-- The 4-bit condition selector `CC` (R62). -/
abbrev CondSel := BitVec 4

end Sys2Proof
end

