-- ==== Sys2Proof/Config.lean ====
section
/-! DEFINITION. The implementation parameters of 00_scope.md R5: the choices the spec names, each with all its
values, PC_WIDTH, and the other OPEN parameters as constants without a body. The values at reset are in
Machine/Params.lean. -/

namespace Sys2Proof

/-- `SUB_CARRY` (41_add_sub.md R112; log 8): what `c` means after SUBur and CMPur. -/
inductive SubCarry where
  /-- `c = 1` iff minuend `<u` subtrahend; the spec's default (D8). -/
  | borrow
  /-- `c = 1` iff minuend `>=u` subtrahend. -/
  | notBorrow
  deriving DecidableEq, Repr

/-- `CMP_ORDER` (44_compare_test.md R150; log 9): which difference CMPur forms. -/
inductive CmpOrder where
  /-- `DR[t] - DR[s]`; the spec's default (D9). -/
  | tMinusS
  /-- `DR[s] - DR[t]`. -/
  | sMinusT
  deriving DecidableEq, Repr

/-- `ROT_RANGE` (43_shift_rotate.md R131, R133; log 12): a rotate whose amount is 24 to 31. -/
inductive RotRange where
  /-- rotate by the amount modulo 24; the spec's default (D12). -/
  | mod24
  /-- raise the software interrupt, as the shifts do (DEDUCED). -/
  | trap
  /-- no meaning. -/
  | refuse
  deriving DecidableEq, Repr

/-- `MCC_FALSE` (40_nop_copy.md R102; log 13): what MCCur writes when its condition does not hold. -/
inductive MccFalse where
  /-- nothing; the spec's default (D13). -/
  | nothing
  /-- `z <- (DR[s] == 0)` and no register. -/
  | zFromSource
  deriving DecidableEq, Repr

/-- `RESERVED_NONZERO` (30_encoding.md R70; log 15): a word whose reserved field is not zero. -/
inductive ReservedNonzero where
  /-- the decoder refuses it; the spec's default (D15). -/
  | refuse
  /-- the reserved bits are ignored. -/
  | ignore
  deriving DecidableEq, Repr

/-- `SHIFT_CARRY` (43_shift_rotate.md R136; log 10): the function giving `c` after a shift or rotate. -/
inductive ShiftCarry where
  /-- R136's default instance: the last bit that left the register's end, 0 if no bit moved (D10). -/
  | lastBitOut
  /-- R136's other named instance: as the default, but `c` is kept when the amount is 0. -/
  | keepOnZero
  /-- any function at all of the operation, the old value, the amount and the old carry. -/
  | uninterpreted
  deriving DecidableEq, Repr

/-- `condHolds` (10_state.md R33; log 14): whether condition `cc` holds of the flags. -/
inductive CondRule where
  /-- the OPEN parameter itself: an unknown function of `cc` and the four flags. -/
  | uninterpreted
  /-- an instance a harness supplies (95_test_vectors.md 3.1): bit `cc * 16 + z * 8 + n * 4 + c * 2 + v` of
  `rows` says whether `cc` holds of the flags `z`, `n`, `c`, `v`. DESIGN CHOICE: the order of the bits. -/
  | table (rows : BitVec 256)
  deriving DecidableEq, Repr

/-- The operation a shift carry is computed for (R136). -/
inductive ShiftOp where
  | shl | rol | shr | ror
  deriving DecidableEq, Repr

/-- The parameters of R5 that have values to choose among. No instruction writes one. -/
structure Config where
  subCarry        : SubCarry
  cmpOrder        : CmpOrder
  shiftCarry      : ShiftCarry
  rotRange        : RotRange
  mccFalse        : MccFalse
  cond            : CondRule
  reservedNonzero : ReservedNonzero
  /-- `PC_WIDTH`, OPEN: the width of `pc` in bits, any number (10_state.md R20, R26; log 17). -/
  pcWidth         : Nat
  deriving DecidableEq, Repr

/-- OPEN `condHolds(cc, z, n, c, v)` (R33; log 14): no value is known for any argument. -/
opaque Config.condHoldsOpen : CondSel → Bool → Bool → Bool → Bool → Bool

/-- OPEN `SHIFT_CARRY` (R136; log 10), of the operation, the old value, the amount and the old carry. -/
opaque Config.shiftCarryOpen : ShiftOp → Word → BitVec 5 → Bool → Bool

/-- OPEN `CAUSE_ARITH_RANGE` (60_exceptions.md R161; log 20): the number of the cause, which no rule reads. -/
opaque Config.causeArithRange : Nat

end Sys2Proof
end

