-- ==== Sys2Proof/Syntax.lean ====
section
/-! DEFINITION. The fifteen instructions of opclass 0000 (00_scope.md R2), their names in both spellings and
their formats (30_encoding.md R63 to R67, R75). -/

namespace Sys2Proof

/-- The instructions, in the order of `subop` 0000 to 1110 (R2). Operands stand in the order of the µop
spelling: condition, source `DRs`, target `DRt` (R75, R76). -/
inductive Instr where
  | nop
  | movur (s t : RegNum)
  | mccur (cc : CondSel) (s t : RegNum)
  | addur (s t : RegNum)
  | subur (s t : RegNum)
  | notur (t : RegNum)
  | andur (s t : RegNum)
  | orur  (s t : RegNum)
  | xorur (s t : RegNum)
  | shlur (s t : RegNum)
  | rolur (s t : RegNum)
  | shrur (s t : RegNum)
  | rorur (s t : RegNum)
  | cmpur (s t : RegNum)
  | tstur (t : RegNum)
  deriving DecidableEq, Repr

/-- The operation of an instruction without its operands: what `subop` selects (R67). -/
inductive Op where
  | nop | mov | mcc | add | sub | not | and | or | xor | shl | rol | shr | ror | cmp | tst
  deriving DecidableEq, Repr

/-- The four formats (R63 to R66): no operand, target and source, those and a condition, target only. -/
inductive Format where
  | z | rr | rrc | r
  deriving DecidableEq, Repr

/-- Why the decoder gives a word no meaning (R70 to R73). A refusal is the model's, not a trap of the processor. -/
inductive DecodeRefusal where
  /-- `opclass_out_of_scope`: `opclass` is not 0000 (R72). -/
  | opclassOutOfScope
  /-- `unassigned_subop`: `subop` is 1111 (R71). -/
  | unassignedSubop
  /-- `reserved_field_nonzero`: the format's reserved field is not zero (R70). -/
  | reservedFieldNonzero
  deriving DecidableEq, Repr

/-- The instruction's operation. -/
def Instr.op : Instr → Op
  | .nop => .nop
  | .movur _ _ => .mov
  | .mccur _ _ _ => .mcc
  | .addur _ _ => .add
  | .subur _ _ => .sub
  | .notur _ => .not
  | .andur _ _ => .and
  | .orur _ _ => .or
  | .xorur _ _ => .xor
  | .shlur _ _ => .shl
  | .rolur _ _ => .rol
  | .shrur _ _ => .shr
  | .rorur _ _ => .ror
  | .cmpur _ _ => .cmp
  | .tstur _ => .tst

/-- The format of each operation (R67). -/
def Op.format : Op → Format
  | .nop => .z
  | .mcc => .rrc
  | .not | .tst => .r
  | .mov | .add | .sub | .and | .or | .xor | .shl | .rol | .shr | .ror | .cmp => .rr

/-- Whether a format has the field `DRt`. -/
def Format.hasTarget : Format → Bool
  | .z => false
  | .rr | .rrc | .r => true

/-- Whether a format has the field `DRs`. -/
def Format.hasSource : Format → Bool
  | .z | .r => false
  | .rr | .rrc => true

/-- Whether a format has the field `CC`. -/
def Format.hasCond : Format → Bool
  | .rrc => true
  | .z | .rr | .r => false

/-- The operation with its operands; a field the format lacks is not used. -/
def Op.instr (cc : CondSel) (s t : RegNum) : Op → Instr
  | .nop => .nop
  | .mov => .movur s t
  | .mcc => .mccur cc s t
  | .add => .addur s t
  | .sub => .subur s t
  | .not => .notur t
  | .and => .andur s t
  | .or => .orur s t
  | .xor => .xorur s t
  | .shl => .shlur s t
  | .rol => .rolur s t
  | .shr => .shrur s t
  | .ror => .rorur s t
  | .cmp => .cmpur s t
  | .tst => .tstur t

/-- The target register's number, 0 for the format without one (R68). -/
def Instr.target : Instr → RegNum
  | .nop => 0
  | .movur _ t | .mccur _ _ t | .addur _ t | .subur _ t | .notur t | .andur _ t | .orur _ t | .xorur _ t
  | .shlur _ t | .rolur _ t | .shrur _ t | .rorur _ t | .cmpur _ t | .tstur t => t

/-- The source register's number, 0 for the formats without one (R68). -/
def Instr.source : Instr → RegNum
  | .nop | .notur _ | .tstur _ => 0
  | .movur s _ | .mccur _ s _ | .addur s _ | .subur s _ | .andur s _ | .orur s _ | .xorur s _
  | .shlur s _ | .rolur s _ | .shrur s _ | .rorur s _ | .cmpur s _ => s

/-- The condition selector, 0 for the formats without one (R68). -/
def Instr.cond : Instr → CondSel
  | .mccur cc _ _ => cc
  | .nop | .movur _ _ | .addur _ _ | .subur _ _ | .notur _ | .andur _ _ | .orur _ _ | .xorur _ _ | .shlur _ _
  | .rolur _ _ | .shrur _ _ | .rorur _ _ | .cmpur _ _ | .tstur _ => 0

/-- The µop mnemonic, the spec's name of the instruction (R75). -/
def Op.uopName : Op → String
  | .nop => "NOP"
  | .mov => "MOVur"
  | .mcc => "MCCur"
  | .add => "ADDur"
  | .sub => "SUBur"
  | .not => "NOTur"
  | .and => "ANDur"
  | .or => "ORur"
  | .xor => "XORur"
  | .shl => "SHLur"
  | .rol => "ROLur"
  | .shr => "SHRur"
  | .ror => "RORur"
  | .cmp => "CMPur"
  | .tst => "TSTur"

/-- The isa mnemonic, the assembler's spelling; the suffix that names MCCur's condition is an operand (R75). -/
def Op.isaName : Op → String
  | .nop => "no_oper"
  | .mov => "copy"
  | .mcc => "cond_copy"
  | .add => "add.u"
  | .sub => "sub.u"
  | .not => "not"
  | .and => "and"
  | .or => "or"
  | .xor => "xor"
  | .shl => "shift_left"
  | .rol => "rot_left"
  | .shr => "shift_right"
  | .ror => "rot_right"
  | .cmp => "comp.u"
  | .tst => "test.u"

/-- All fifteen operations in the order of `subop` (R2). -/
def Op.all : List Op :=
  [.nop, .mov, .mcc, .add, .sub, .not, .and, .or, .xor, .shl, .rol, .shr, .ror, .cmp, .tst]

end Sys2Proof
end

