-- ==== Sys2Proof/WellFormed.lean ====
section
/-! DEFINITION. Well-formedness. Every term of `Instr` is well formed by its type: a register number is one of
sixteen (10_state.md R22), a condition selector four bits (30_encoding.md R62), and no rule restricts them
further (R24). What can be ill formed is an assembler line, whose numbers are written in decimal
(R75 to R77); the checks on it are here (DESIGN CHOICE, safe; log 37). -/

namespace Sys2Proof

/-- An assembler line: the operation, and the operands as written: the condition in the suffix, then `ds`, then
`dt`, register `i` as `d<i>` and condition `i` as `[i]` (R75 to R77; log 28). -/
structure AsmLine where
  op : Op
  cc : Option Nat
  ds : Option Nat
  dt : Option Nat
  deriving DecidableEq, Repr

/-- The line has exactly the operands its operation takes (R75). -/
def AsmLine.operandsFit (l : AsmLine) : Bool :=
  l.cc.isSome == l.op.format.hasCond && l.ds.isSome == l.op.format.hasSource && l.dt.isSome == l.op.format.hasTarget

/-- A condition, if written, is 0 to 15 (R77). -/
def AsmLine.condInRange (l : AsmLine) : Bool := l.cc.all (· < 16)

/-- A source register, if written, is `d0` to `d15` (R77). -/
def AsmLine.sourceInRange (l : AsmLine) : Bool := l.ds.all (· < 16)

/-- A target register, if written, is `d0` to `d15` (R77). -/
def AsmLine.targetInRange (l : AsmLine) : Bool := l.dt.all (· < 16)

/-- A line is well formed when all four checks pass. -/
def AsmLine.wellFormed (l : AsmLine) : Bool :=
  l.operandsFit && l.condInRange && l.sourceInRange && l.targetInRange

end Sys2Proof
end

