-- ==== Sys2Proof/Decode.lean ====
section
/-! DEFINITION. The decoder (30_encoding.md R60 to R73), total on 24-bit words, the encoder (R68), the rows of
the opcode map (R67), and the assembler's reading of a line (R75 to R77). -/

namespace Sys2Proof

/-- `insn[23:20]` (R61). -/
def opclassField (w : Word) : BitVec 4 := w.extractLsb' 20 4

/-- `insn[19:16]` (R61). -/
def subopField (w : Word) : BitVec 4 := w.extractLsb' 16 4

/-- `t = insn[15:12]` (R62). -/
def targetField (w : Word) : RegNum := (w.extractLsb' 12 4).toFin

/-- `s = insn[11:8]` (R62). -/
def sourceField (w : Word) : RegNum := (w.extractLsb' 8 4).toFin

/-- `cc = insn[7:4]` (R62). -/
def condField (w : Word) : CondSel := w.extractLsb' 4 4

/-- Whether the format's reserved field is zero (R63 to R66). -/
def reservedZero (w : Word) : Format → Bool
  | .z   => w.extractLsb' 0 16 == 0
  | .rr  => w.extractLsb' 0 8 == 0
  | .rrc => w.extractLsb' 0 4 == 0
  | .r   => w.extractLsb' 0 12 == 0

/-- The operation a `subop` value selects; 1111 selects none (R67, R71). -/
def opOfSubop (subop : BitVec 4) : Option Op :=
  match subop.toNat with
  | 0 => some .nop
  | 1 => some .mov
  | 2 => some .mcc
  | 3 => some .add
  | 4 => some .sub
  | 5 => some .not
  | 6 => some .and
  | 7 => some .or
  | 8 => some .xor
  | 9 => some .shl
  | 10 => some .rol
  | 11 => some .shr
  | 12 => some .ror
  | 13 => some .cmp
  | 14 => some .tst
  | _ => none

/-- The decoding procedure (R73): the checks in the order opclass, subop, reserved field. -/
def decode (rn : ReservedNonzero) (w : Word) : Except DecodeRefusal Instr :=
  if opclassField w ≠ 0 then .error .opclassOutOfScope
  else
    match opOfSubop (subopField w) with
    | none => .error .unassignedSubop
    | some op =>
      if reservedZero w op.format = false ∧ rn = .refuse then .error .reservedFieldNonzero
      else .ok (op.instr (condField w) (sourceField w) (targetField w))

/-- The `subop` value of an operation (R67). -/
def Op.subop : Op → Nat
  | .nop => 0
  | .mov => 1
  | .mcc => 2
  | .add => 3
  | .sub => 4
  | .not => 5
  | .and => 6
  | .or => 7
  | .xor => 8
  | .shl => 9
  | .rol => 10
  | .shr => 11
  | .ror => 12
  | .cmp => 13
  | .tst => 14

/-- The encoding formula (R68): `op * 0x10000 + t * 0x1000 + s * 0x100 + cc * 0x10`. -/
def encode (i : Instr) : Word :=
  BitVec.ofNat 24
    (i.op.subop * 0x10000 + i.target.val * 0x1000 + i.source.val * 0x100 + i.cond.toNat * 0x10)

/-- The bits of a format that its field pattern fixes: `mask` of R67. -/
def Op.maskWord (op : Op) : Word :=
  match op.format with
  | .z => 0xFFFFFF
  | .rr => 0xFF00FF
  | .rrc => 0xFF000F
  | .r => 0xFF0FFF

/-- `match` of R67. -/
def Op.matchWord : Op → Word
  | .nop => 0x000000
  | .mov => 0x010000
  | .mcc => 0x020000
  | .add => 0x030000
  | .sub => 0x040000
  | .not => 0x050000
  | .and => 0x060000
  | .or => 0x070000
  | .xor => 0x080000
  | .shl => 0x090000
  | .rol => 0x0A0000
  | .shr => 0x0B0000
  | .ror => 0x0C0000
  | .cmp => 0x0D0000
  | .tst => 0x0E0000

/-- The instruction a well-formed assembler line stands for: source first, target last (R76). -/
def assemble (l : AsmLine) : Option Instr :=
  if l.wellFormed then
    some (l.op.instr (BitVec.ofNat 4 (l.cc.getD 0)) (Fin.ofNat 16 (l.ds.getD 0)) (Fin.ofNat 16 (l.dt.getD 0)))
  else none

/-- The assembler line of an instruction (R75, R77). -/
def disassemble (i : Instr) : AsmLine where
  op := i.op
  cc := if i.op.format.hasCond then some i.cond.toNat else none
  ds := if i.op.format.hasSource then some i.source.val else none
  dt := if i.op.format.hasTarget then some i.target.val else none

/-- A register's spelling, `d0` to `d15` (R77; log 28). -/
def regText (i : Nat) : String := "d" ++ Nat.repr i

/-- A line's text: the isa mnemonic, MCCur's condition in brackets after a dot, then source and target
(R75 to R77). -/
def AsmLine.text (l : AsmLine) : String :=
  l.op.isaName
    ++ (match l.cc with | none => "" | some k => ".[" ++ Nat.repr k ++ "]")
    ++ (match l.ds, l.dt with
        | none, none => ""
        | some s, none => " " ++ regText s
        | none, some t => " " ++ regText t
        | some s, some t => " " ++ regText s ++ ", " ++ regText t)

/-- What the decoder reads from an instruction whose `nbits` bits, numbered from the least significant, are
`w`: every bit above `nbits` is 0, and an instruction is one 24-bit word (R60), so a longer one is none. The
parameter RESERVED_NONZERO stands at the spec's default (R70). -/
def decodeTableWord (nbits w : Nat) : Option Instr :=
  if 24 < nbits then none
  else
    match decode .refuse (BitVec.ofNat 24 (w % 2 ^ nbits)) with
    | .ok i => some i
    | .error _ => none

end Sys2Proof
end

