-- ==== Sys2Proof/Machine/Params.lean ====
section
/-! DEFINITION. The parameter values at reset: the spec's defaults (00_scope.md R5), and the model's width of `pc`. -/

namespace Sys2Proof.Machine

/-- The "value" column of R5 for the parameters that have alternatives: the spec's own decisions D8, D9, D10,
D12, D13, D14 (OPEN) and D15 (logs 8, 9, 10, 12, 13, 14, 15). PC_WIDTH is OPEN and the spec gives it no default:
24 is the model's (DESIGN CHOICE, unsafe for a claim about runs from reset; logs 17 and 36). -/
def specConfig : Config where
  subCarry := .borrow
  cmpOrder := .tMinusS
  shiftCarry := .lastBitOut
  rotRange := .mod24
  mccFalse := .nothing
  cond := .uninterpreted
  reservedNonzero := .refuse
  pcWidth := 24

end Sys2Proof.Machine
end

