-- ==== Sys2Proof/Machine/State.lean ====
section
/-! DEFINITION. The machine's state (10_state.md R20), its reset value, and the reasons a step can stop
(70_reset_and_hazards.md R196). -/

namespace Sys2Proof.Machine

/-- Instruction memory, the one address space (20_memory.md R40, R41): the words `prog` at the indices `base`,
`base + 1`, … Every index outside them has no value. One index holds one 24-bit word (log 18). The list has no
gaps and no repeats, so memories with the same base that read alike are equal. -/
structure Memory where
  base : Nat
  prog : List Word
  deriving DecidableEq, Repr

/-- The state. `dr`, `z`, `n`, `c`, `v`, `pc` are the architectural state, all of it (R20). `pastTop` is
the model's own (log 38). `mem` and `cfg` are
what R41 and R5 call parameters of the run: no instruction writes them, and they stand here because a step is a
function of the state alone (DESIGN CHOICE, safe; log 32). -/
structure State where
  /-- the sixteen data registers (R22, R23) -/
  dr : Vector Word 16
  /-- zero (R29, R31) -/
  z : Bool
  /-- negative; nothing in scope writes it (R34) -/
  n : Bool
  /-- carry (R29, R32) -/
  c : Bool
  /-- overflow; nothing in scope writes it (R34) -/
  v : Bool
  /-- the program counter, counted in instruction words, of `PC_WIDTH` bits by `pcFits` (R26; log 17) -/
  pc : Nat
  /-- the model's mark that the last instruction stood at the highest index `pc` can hold: the index it counts to
  next, `pc + 1`, has more than `PC_WIDTH` bits, and no wrapped `pc` is computed for it (R28; DESIGN CHOICE, log 38) -/
  pastTop : Bool
  /-- the loaded program and where it stands (R41) -/
  mem : Memory
  /-- the parameters of R5 -/
  cfg : Config
  /-- `pc` is an unsigned integer of `PC_WIDTH` bits (R20, R26): there is no state in which it is not. -/
  pcFits : pc < 2 ^ cfg.pcWidth
  /-- The mark stands only at the highest index (log 38). -/
  topFits : pastTop = false ∨ pc + 1 = 2 ^ cfg.pcWidth
  deriving DecidableEq, Repr

/-- The causes of a software interrupt; the source names one (60_exceptions.md R160 to R162). -/
inductive Cause where
  /-- `ARITH_RANGE`: a shift whose amount is 24 or more. -/
  | arithRange
  deriving DecidableEq, Repr

/-- The terminal outcomes of R196 at which the machine stops. Each carries the state at the stop, which the host
may read (70 R198; DESIGN CHOICE, safe; log 34). -/
inductive Fault where
  /-- Not an error: the NORMAL end of a run, `Done`, raised by `step` when the index counted to is `base + len`
  (R196, R28; logs 26 and 38).
  Safe: the processor goes on to whatever word follows. -/
  | done (final : State)
  /-- The software interrupt (R163), raised by SHLur and SHRur when the amount is 24 or more (R135), and by
  ROLur and RORur only under `ROT_RANGE = trap`. It carries the state before the instruction, unchanged (R163).
  The stop is safe: the processor goes on in a way no rule describes (`trapEntry`, OPEN; log 21). That the
  carried state keeps `z`, `c` and `pc` is the spec's decision, unsafe for a claim that reads them (log 22). -/
  | softwareInterrupt (cause : Cause) (before : State)
  deriving DecidableEq, Repr

/-- The reasons the model gives no meaning. Each but the first carries the state at the refusal (log 34). -/
inductive Refusal where
  /-- An arm of `exec` without a meaning; none is left. Safe. -/
  | notModelled (mnemonic : String)
  /-- Raised by `step` when the decoder refuses the word at `pc` (30_encoding.md R70 to R73). Safe: the spec
  gives such a word no meaning (logs 15 and 16). -/
  | undecodable (reason : DecodeRefusal) (stopped : State)
  /-- `pc_out_of_program`, raised by `step` when `pc` is outside `base .. base + len`, or when the program goes on
  at an index that `pc` cannot hold (R196, R28; log 38). Safe. -/
  | pcOutOfProgram (stopped : State)
  /-- Raised by ROLur and RORur with an amount of 24 to 31, only under `ROT_RANGE = refuse` (43_shift_rotate.md
  R131, R133; log 12). Safe. -/
  | rotateOutOfRange (stopped : State)
  deriving DecidableEq, Repr

/-- What a step and a meaning answer. -/
abbrev Outcome := Host.Outcome State Fault Refusal

/-- The state right after reset. The spec gives no reset value for anything (10_state.md R37, 70 R190): every
register and flag is 0, `pc = base = 0`, the mark `pastTop` is clear (log 38) and no program is loaded, which is the model's choice (DESIGN CHOICE,
unsafe; log 25). The parameters stand at the spec's defaults (R5), PC_WIDTH at the model's 24 (log 36). -/
def State.reset : State where
  dr := Vector.replicate 16 0
  z := false
  n := false
  c := false
  v := false
  pc := 0
  pastTop := false
  mem := { base := 0, prog := [] }
  cfg := specConfig
  pcFits := Nat.two_pow_pos _
  topFits := .inl rfl

end Sys2Proof.Machine
end

