-- ==== Sys2Proof/Machine/Ops.lean ====
section
/-! DEFINITION. The named operations over memory, registers, flags and the program counter, and the one way an
instruction completes or traps. -/

namespace Sys2Proof.Machine

/-! ### Instruction memory (20_memory.md R41) -/

/-- The index just past the last word, `base + len` (R196). -/
def Memory.endIndex (m : Memory) : Nat := m.base + m.prog.length

/-- The word at an index; an index outside the program has no value (R41). -/
def Memory.word? (m : Memory) (idx : Nat) : Option Word :=
  if m.base ≤ idx then m.prog[idx - m.base]? else none

/-- The program, and the index just past it, fit a program counter of `width` bits (log 35). No step asks for it: a
run that comes to an index with more bits ends or refuses there (10_state.md R28, log 38). -/
abbrev Memory.wf (m : Memory) (width : Nat) : Prop := m.endIndex < 2 ^ width

/-- The loader's write of one word (70 R191, R198; DESIGN CHOICE, log 33): over the word at `idx` where the program has one,
else `w` becomes a program of one word at `idx`. No instruction does this (R42). -/
def Memory.place (m : Memory) (idx : Nat) (w : Word) : Memory :=
  if m.base ≤ idx ∧ idx < m.endIndex then { m with prog := m.prog.set (idx - m.base) w }
  else { base := idx, prog := [w] }

/-! ### Registers, flags, pc -/

/-- `DR[i]` (00_scope.md R7). All sixteen registers are alike: none is hardwired or special (10_state.md R24). -/
def State.readDR (st : State) (i : RegNum) : Word := st.dr[i]

/-- `DR[i] <- w`. -/
def State.writeDR (st : State) (i : RegNum) (w : Word) : State := { st with dr := st.dr.set i w }

/-- `z <- b`. -/
def State.setZ (st : State) (b : Bool) : State := { st with z := b }

/-- `c <- b`. -/
def State.setC (st : State) (b : Bool) : State := { st with c := b }

/-- Whether `pc` is the highest integer of `width` bits, so that `pc + 1` is none (10_state.md R28). -/
def atTop (width pc : Nat) : Bool := pc + 1 == 2 ^ width

/-- `pc + 1` (10_state.md R27). No wrapped `pc` is computed (R28): at the highest index `pc` is not written. -/
def nextPc (width pc : Nat) : Nat := if atTop width pc then pc else pc + 1

theorem nextPc_lt {width pc : Nat} (h : pc < 2 ^ width) : nextPc width pc < 2 ^ width := by
  simp only [nextPc, atTop, beq_iff_eq]
  split <;> omega

theorem atTop_nextPc (width pc : Nat) : atTop width pc = false ∨ nextPc width pc + 1 = 2 ^ width := by
  by_cases h : atTop width pc = true
  · exact .inr (by simpa [nextPc, h] using beq_iff_eq.mp h)
  · exact .inl (Bool.eq_false_iff.mpr h)

/-- `pc <- pc + 1` (10_state.md R27), or the mark that the index counted to has more than PC_WIDTH bits (log 38). -/
def State.advance (st : State) : State :=
  { st with
    pc := nextPc st.cfg.pcWidth st.pc
    pastTop := atTop st.cfg.pcWidth st.pc
    pcFits := nextPc_lt st.pcFits
    topFits := atTop_nextPc _ _ }

/-- The index the run has counted to (R26, R27): `pc`, or one more where the mark stands (log 38). -/
def State.index (st : State) : Nat := st.pc + st.pastTop.toNat

/-- `IFetch(pc)` (00_scope.md R10); no value past the highest index, which is no index `pc` can hold (R28). -/
def State.fetch (st : State) : Option Word := if st.pastTop then none else st.mem.word? st.pc

/-- The definition of `z` (10_state.md R31; log 6): whether the 24-bit value produced is zero. -/
def isZero (w : Word) : Bool := w == 0

/-- Write the result to `DR[t]`, `z` from it, and advance: the instructions whose flag row is `x - - -`. -/
def State.commitZ (st : State) (t : RegNum) (r : Word) : State :=
  ((st.writeDR t r).setZ (isZero r)).advance

/-- As `commitZ`, and `c`: the instructions whose flag row is `x - x -`. -/
def State.commitZC (st : State) (t : RegNum) (r : Word) (carry : Bool) : State :=
  (((st.writeDR t r).setZ (isZero r)).setC carry).advance

/-! ### Taking the exception, and where a run ends -/

/-- `raise SoftwareInterrupt(cause)` (60_exceptions.md R163): the terminal outcome, with the state before the
instruction and none of its writes. There is no return from it (R165). -/
def raiseInterrupt (cause : Cause) (before : State) : Outcome := .fault (.softwareInterrupt cause before)

/-- The number of a cause (R161): OPEN. -/
def Cause.code : Cause → Nat
  | .arithRange => Config.causeArithRange

/-- A step with no word to fetch (70 R196, 10_state.md R28): `Done` just past the program, refused elsewhere. -/
def State.endOfProgram (st : State) : Outcome :=
  if st.index = st.mem.endIndex then .fault (.done st) else .refused (.pcOutOfProgram st)

end Sys2Proof.Machine
end

