-- ==== Sys2Proof/Machine/Operands.lean ====
section
/-! DEFINITION. The operand forms (a register, or its low five bits as an amount) and the 24-bit data operations
(00_scope.md R7, R8). -/

namespace Sys2Proof.Machine

/-- `DR[s][4:0]`, the amount of a shift or rotate, 0 to 31 (43_shift_rotate.md R134). -/
def State.amount (st : State) (s : RegNum) : BitVec 5 := (st.readDR s).extractLsb' 0 5

/-- Whether an amount is out of range, `>= 24` (R135). The 24 is the source's own number (00_scope.md R6). -/
def outOfRange (k : BitVec 5) : Bool := decide (24 ≤ k.toNat)

/-- `zext_25(a) + zext_25(b)`, the exact sum (41_add_sub.md R110). -/
def sum25 (a b : Word) : BitVec 25 := a.zeroExtend 25 + b.zeroExtend 25

/-- `(a << k)[23:0]` (R130). -/
def shiftLeft (a : Word) (k : Nat) : Word := a <<< k

/-- `a >> k`, zeros entering at bit 23 (R132; log 11). -/
def shiftRight (a : Word) (k : Nat) : Word := a >>> k

/-- `rotl24(a, m)`, for `m` of 0 to 23 (00_scope.md R7). -/
def rotl24 (a : Word) (m : Nat) : Word := if m = 0 then a else (a <<< m) ||| (a >>> (24 - m))

/-- `rotr24(a, m) = rotl24(a, (24 - m) mod 24)`, for `m` of 0 to 23 (00_scope.md R7). -/
def rotr24 (a : Word) (m : Nat) : Word := rotl24 a ((24 - m) % 24)

end Sys2Proof.Machine
end

