-- ==== Sys2Proof/Machine/Flags.lean ====
section
/-! DEFINITION. The carry of an addition, of a subtraction, of a shift or rotate, and the condition of MCCur.
The zero flag is `isZero` (Machine/Ops.lean). -/

namespace Sys2Proof.Machine

/-- The carry out of bit 23 of an addition (41_add_sub.md R110; log 7). -/
def addCarry (a b : Word) : Bool := (sum25 a b).getLsbD 24

/-- `subCarry(a, b)` for a minuend `a` and a subtrahend `b` (41_add_sub.md R112; log 8). -/
def subCarry (rule : SubCarry) (a b : Word) : Bool :=
  match rule with
  | .borrow => a.ult b
  | .notBorrow => !a.ult b

/-- CMPur's carry, by the order of its operands: `a = DR[t]`, `b = DR[s]` (44_compare_test.md R150; log 9). -/
def compareCarry (order : CmpOrder) (rule : SubCarry) (a b : Word) : Bool :=
  match order with
  | .tMinusS => subCarry rule a b
  | .sMinusT => subCarry rule b a

/-- R136's table: the last bit that left the register's end, for an amount of 1 or more. For a rotate it is the
bit that wrapped last. -/
def lastBitOut (op : ShiftOp) (a : Word) (k : Nat) : Bool :=
  match op with
  | .shl => a.getLsbD (24 - k)
  | .shr => a.getLsbD (k - 1)
  | .rol => (rotl24 a (k % 24)).getLsbD 0
  | .ror => (rotr24 a (k % 24)).getLsbD 23

/-- `shiftCarry(op, a, k, c_old)` (43_shift_rotate.md R136; log 10). The default tests the amount `k` itself,
not `k mod 24`. -/
def shiftCarry (rule : ShiftCarry) (op : ShiftOp) (a : Word) (k : BitVec 5) (cOld : Bool) : Bool :=
  match rule with
  | .lastBitOut => if k.toNat = 0 then false else lastBitOut op a k.toNat
  | .keepOnZero => if k.toNat = 0 then cOld else lastBitOut op a k.toNat
  | .uninterpreted => Config.shiftCarryOpen op a k cOld

/-- Where a condition and flags stand in the table a harness supplies (log 14). -/
def condRow (cc : CondSel) (z n c v : Bool) : Nat :=
  cc.toNat * 16 + z.toNat * 8 + n.toNat * 4 + c.toNat * 2 + v.toNat

/-- `condHolds(cc, z, n, c, v)` (10_state.md R33; log 14). -/
def condHolds (rule : CondRule) (cc : CondSel) (z n c v : Bool) : Bool :=
  match rule with
  | .uninterpreted => Config.condHoldsOpen cc z n c v
  | .table rows => rows.getLsbD (condRow cc z n c v)

/-- MCCur's condition, on the flags before the instruction (40_nop_copy.md R102). -/
def State.holds (st : State) (cc : CondSel) : Bool := condHolds st.cfg.cond cc st.z st.n st.c st.v

end Sys2Proof.Machine
end

