-- ==== Sys2Proof/Machine/AddSub.lean ====
section
/-! DEFINITION. ADDur, SUBur (41_add_sub.md). -/

namespace Sys2Proof.Machine

/-- ADDur (R110): the sum's low 24 bits, `c` the carry out of bit 23. -/
def execAddur (s t : RegNum) (st : State) : Outcome :=
  .next (st.commitZC t ((sum25 (st.readDR t) (st.readDR s)).extractLsb' 0 24)
    (addCarry (st.readDR t) (st.readDR s)))

/-- SUBur (R111): target minus source modulo `2^24`, `c` by R112. -/
def execSubur (s t : RegNum) (st : State) : Outcome :=
  .next (st.commitZC t (st.readDR t - st.readDR s)
    (subCarry st.cfg.subCarry (st.readDR t) (st.readDR s)))

end Sys2Proof.Machine
end

