-- ==== Sys2Proof/Machine/CompareTest.lean ====
section
/-! DEFINITION. CMPur, TSTur (44_compare_test.md). -/

namespace Sys2Proof.Machine

/-- CMPur (R150): the flags of the difference, which is formed and not written. The zero flag is the same for
either order of the operands. -/
def execCmpur (s t : RegNum) (st : State) : Outcome :=
  .next ((st.setZ (isZero (st.readDR t - st.readDR s))).setC
    (compareCarry st.cfg.cmpOrder st.cfg.subCarry (st.readDR t) (st.readDR s))).advance

/-- TSTur (R151): `z <- (DR[t] == 0)`. -/
def execTstur (t : RegNum) (st : State) : Outcome := .next (st.setZ (isZero (st.readDR t))).advance

end Sys2Proof.Machine
end

