-- ==== Sys2Proof/Machine/Copy.lean ====
section
/-! DEFINITION. NOP, MOVur, MCCur (40_nop_copy.md). -/

namespace Sys2Proof.Machine

/-- NOP (R100): nothing but the advance of `pc`. -/
def execNop (st : State) : Outcome := .next st.advance

/-- MOVur (R101): `DR[t] <- DR[s]`, `z` from the copied value. -/
def execMovur (s t : RegNum) (st : State) : Outcome := .next (st.commitZ t (st.readDR s))

/-- MCCur's other branch (R102): what is written when the condition does not hold (log 13). -/
def notCopied (s : RegNum) (st : State) : State :=
  match st.cfg.mccFalse with
  | .nothing => st.advance
  | .zFromSource => (st.setZ (isZero (st.readDR s))).advance

/-- MCCur (R102): the copy, guarded by the condition on the flags before the instruction. -/
def execMccur (cc : CondSel) (s t : RegNum) (st : State) : Outcome :=
  .next (if st.holds cc then st.commitZ t (st.readDR s) else notCopied s st)

end Sys2Proof.Machine
end

