-- ==== Sys2Proof/Machine/Logic.lean ====
section
/-! DEFINITION. NOTur, ANDur, ORur, XORur (42_logic.md). -/

namespace Sys2Proof.Machine

/-- NOTur (R120): the complement of the target, in place. -/
def execNotur (t : RegNum) (st : State) : Outcome := .next (st.commitZ t (~~~st.readDR t))

/-- ANDur (R121). -/
def execAndur (s t : RegNum) (st : State) : Outcome := .next (st.commitZ t (st.readDR t &&& st.readDR s))

/-- ORur (R122). -/
def execOrur (s t : RegNum) (st : State) : Outcome := .next (st.commitZ t (st.readDR t ||| st.readDR s))

/-- XORur (R123). -/
def execXorur (s t : RegNum) (st : State) : Outcome := .next (st.commitZ t (st.readDR t ^^^ st.readDR s))

end Sys2Proof.Machine
end

