-- ==== Sys2Proof/Machine/Shift.lean ====
section
/-! DEFINITION. SHLur, ROLur, SHRur, RORur (43_shift_rotate.md). -/

namespace Sys2Proof.Machine

/-- Write a shifted or rotated value `r` of the target, `z` from it and `c` by R136. -/
def commitShift (op : ShiftOp) (s t : RegNum) (r : Word) (st : State) : State :=
  st.commitZC t r (shiftCarry st.cfg.shiftCarry op (st.readDR t) (st.amount s) st.c)

/-- A shift (R130, R132): the range check first (R135), then the shift of the target by the amount. -/
def shiftBy (op : ShiftOp) (f : Word → Nat → Word) (s t : RegNum) (st : State) : Outcome :=
  if outOfRange (st.amount s) then raiseInterrupt .arithRange st
  else .next (commitShift op s t (f (st.readDR t) (st.amount s).toNat) st)

/-- A rotate (R131, R133): by the amount modulo 24; an amount of 24 to 31 is subject to ROT_RANGE (log 12). -/
def rotateBy (op : ShiftOp) (f : Word → Nat → Word) (s t : RegNum) (st : State) : Outcome :=
  match outOfRange (st.amount s), st.cfg.rotRange with
  | true, .trap => raiseInterrupt .arithRange st
  | true, .refuse => .refused (.rotateOutOfRange st)
  | _, _ => .next (commitShift op s t (f (st.readDR t) ((st.amount s).toNat % 24)) st)

/-- SHLur (R130). -/
def execShlur (s t : RegNum) (st : State) : Outcome := shiftBy .shl shiftLeft s t st

/-- ROLur (R131). -/
def execRolur (s t : RegNum) (st : State) : Outcome := rotateBy .rol rotl24 s t st

/-- SHRur (R132). -/
def execShrur (s t : RegNum) (st : State) : Outcome := shiftBy .shr shiftRight s t st

/-- RORur (R133). -/
def execRorur (s t : RegNum) (st : State) : Outcome := rotateBy .ror rotr24 s t st

end Sys2Proof.Machine
end

