-- ==== Sys2Proof/Machine/Dispatch.lean ====
section
/-! DEFINITION. One arm per instruction, each a direct call of its meaning. -/

namespace Sys2Proof.Machine

def exec (i : Instr) (s : State) : Host.Outcome State Fault Refusal :=
  match i with
  | .nop => Sys2Proof.Machine.execNop s
  | .movur src dst => Sys2Proof.Machine.execMovur src dst s
  | .mccur cc src dst => Sys2Proof.Machine.execMccur cc src dst s
  | .addur src dst => Sys2Proof.Machine.execAddur src dst s
  | .subur src dst => Sys2Proof.Machine.execSubur src dst s
  | .notur dst => Sys2Proof.Machine.execNotur dst s
  | .andur src dst => Sys2Proof.Machine.execAndur src dst s
  | .orur src dst => Sys2Proof.Machine.execOrur src dst s
  | .xorur src dst => Sys2Proof.Machine.execXorur src dst s
  | .shlur src dst => Sys2Proof.Machine.execShlur src dst s
  | .rolur src dst => Sys2Proof.Machine.execRolur src dst s
  | .shrur src dst => Sys2Proof.Machine.execShrur src dst s
  | .rorur src dst => Sys2Proof.Machine.execRorur src dst s
  | .cmpur src dst => Sys2Proof.Machine.execCmpur src dst s
  | .tstur dst => Sys2Proof.Machine.execTstur dst s

end Sys2Proof.Machine
end

