-- ==== Sys2Proof/Machine/Step.lean ====
section
/-! DEFINITION. One step: fetch, decode, execute (00_scope.md R10, 60_exceptions.md R168). -/

namespace Sys2Proof.Machine

/-- The step of R10, in the order of R168: no word at `pc`, then a word the decoder refuses, then execution. The
meaning of an instruction includes its `pc <- pc + 1`, so nothing stands around `exec` here. -/
def step (st : State) : Host.Outcome State Fault Refusal :=
  match st.fetch with
  | none => st.endOfProgram
  | some w =>
    match decode st.cfg.reservedNonzero w with
    | .error r => .refused (.undecodable r st)
    | .ok i => exec i st

/-- `s` with the instruction whose `nbits` bits are `w` (those above are 0) loaded at `pc`, so that the next step
runs it: the load a host does before a run (70 R191; log 33). The mark `pastTop` is cleared, for the step fetches. -/
def State.withFetchWord (s : State) (nbits w : Nat) : State :=
  { s with mem := s.mem.place s.pc (BitVec.ofNat 24 (w % 2 ^ nbits)), pastTop := false, topFits := .inl rfl }

end Sys2Proof.Machine
end

