-- ==== Sys2Proof/Safety.lean ====
section
/-! DEFINITION. The terms claims are stated in: the invariant of a run, frames, what an instruction reads and
writes, and how a run ends. -/

namespace Sys2Proof.Machine

/-- The invariant of a run (70_reset_and_hazards.md R191, R196): the index counted to is between `base` and the index
just past the program. -/
def State.Inv (st : State) : Prop :=
  st.mem.base ≤ st.index ∧ st.index ≤ st.mem.endIndex

/-- `pc <- pc + 1` happened (10_state.md R27) where `pc + 1` is an integer of PC_WIDTH bits; at the highest index no
wrapped `pc` is computed (R28): there `pc` is not written and the mark is set (DESIGN CHOICE, log 38). -/
def Advanced (st st' : State) : Prop :=
  (st.pc + 1 < 2 ^ st.cfg.pcWidth → st'.pc = st.pc + 1 ∧ st'.pastTop = false) ∧
  (st.pc + 1 = 2 ^ st.cfg.pcWidth → st'.pc = st.pc ∧ st'.pastTop = true)

/-- The frame (10_state.md R21): between two states only `pc` (with its mark), `z`, `c` and the listed registers may differ; every
other register, `n`, `v`, the parameters and every word of memory are as before. -/
def KeepsBut (regs : List RegNum) (st st' : State) : Prop :=
  (∀ r, r ∉ regs → st'.readDR r = st.readDR r) ∧ st'.n = st.n ∧ st'.v = st.v ∧ st'.cfg = st.cfg ∧
    st'.mem.base = st.mem.base ∧ (∀ idx, st'.mem.word? idx = st.mem.word? idx)

/-- The "W" column of 10_state.md R25: the registers an instruction that completes writes. -/
def writtenRegs (i : Instr) (st : State) : List RegNum :=
  match i with
  | .nop | .cmpur _ _ | .tstur _ => []
  | .mccur cc _ t => if st.holds cc then [t] else []
  | .movur _ t | .addur _ t | .subur _ t | .notur t | .andur _ t | .orur _ t | .xorur _ t
  | .shlur _ t | .rolur _ t | .shrur _ t | .rorur _ t => [t]

/-- The "R" columns of 10_state.md R25: two states agree on the registers an instruction reads. MCCur needs its
source only when the condition holds (or, under the alternative `MCC_FALSE`, for `z`); a shift or rotate reads
the low five bits of its source. -/
def readsAgree (i : Instr) (st₁ st₂ : State) : Prop :=
  match i with
  | .nop => True
  | .movur s _ => st₁.readDR s = st₂.readDR s
  | .mccur cc s _ => st₁.holds cc = true ∨ st₁.cfg.mccFalse = .zFromSource → st₁.readDR s = st₂.readDR s
  | .addur s t | .subur s t | .andur s t | .orur s t | .xorur s t | .cmpur s t =>
    st₁.readDR s = st₂.readDR s ∧ st₁.readDR t = st₂.readDR t
  | .notur t | .tstur t => st₁.readDR t = st₂.readDR t
  | .shlur s t | .rolur s t | .shrur s t | .rorur s t =>
    st₁.amount s = st₂.amount s ∧ st₁.readDR t = st₂.readDR t

/-- `k` steps of the machine from `st`, stopping at the first stop (70 R196): the host's `run` of this machine. -/
def State.run (st : State) (k : Nat) : Outcome := Sys2Proof.core.run k st

/-- The run from `st` ends normally in `final` (70 R196, `Done`). -/
def EndsIn (st final : State) : Prop := ∃ k, st.run k = .fault (.done final)

/-- A safe run: it never stops but by `Done` (70 R196: a software interrupt and a refusal are not normal ends). -/
def SafeRun (st : State) : Prop :=
  ∀ k, (∃ st', st.run k = .next st') ∨ ∃ final, st.run k = .fault (.done final)

end Sys2Proof.Machine
end

