-- ==== Sys2Proof/Certificates/Slice0/Obligations.lean ====
section
/-! DEFINITION. The statements for the provers. Where a clause rests on a decision the spec marks as its own
(92_eei_decisions.md), the docstring names it and its log entry; a parameter with alternatives appears as a
hypothesis or with a clause for each value. -/

open Sys2Proof Sys2Proof.Machine

/-! ## Encoding -/

/-- R68: "the word is `insn = op * 0x10000 + t * 0x1000 + s * 0x100 + cc * 0x10`", for each of the fifteen
instructions and every operand, with 0 for a field the format lacks. -/
def Obligations.EncodingFollowsTheFormula : Prop :=
  ∀ (cc : CondSel) (s t : RegNum),
    (encode .nop).toNat = 0x000000 ∧
    (encode (.movur s t)).toNat = 0x010000 + t.val * 0x1000 + s.val * 0x100 ∧
    (encode (.mccur cc s t)).toNat = 0x020000 + t.val * 0x1000 + s.val * 0x100 + cc.toNat * 0x10 ∧
    (encode (.addur s t)).toNat = 0x030000 + t.val * 0x1000 + s.val * 0x100 ∧
    (encode (.subur s t)).toNat = 0x040000 + t.val * 0x1000 + s.val * 0x100 ∧
    (encode (.notur t)).toNat = 0x050000 + t.val * 0x1000 ∧
    (encode (.andur s t)).toNat = 0x060000 + t.val * 0x1000 + s.val * 0x100 ∧
    (encode (.orur s t)).toNat = 0x070000 + t.val * 0x1000 + s.val * 0x100 ∧
    (encode (.xorur s t)).toNat = 0x080000 + t.val * 0x1000 + s.val * 0x100 ∧
    (encode (.shlur s t)).toNat = 0x090000 + t.val * 0x1000 + s.val * 0x100 ∧
    (encode (.rolur s t)).toNat = 0x0A0000 + t.val * 0x1000 + s.val * 0x100 ∧
    (encode (.shrur s t)).toNat = 0x0B0000 + t.val * 0x1000 + s.val * 0x100 ∧
    (encode (.rorur s t)).toNat = 0x0C0000 + t.val * 0x1000 + s.val * 0x100 ∧
    (encode (.cmpur s t)).toNat = 0x0D0000 + t.val * 0x1000 + s.val * 0x100 ∧
    (encode (.tstur t)).toNat = 0x0E0000 + t.val * 0x1000

/-- R67: the opcode map. Its fifteen rows (operation, `subop`, both mnemonics, format, match, mask), and, with
`RESERVED_NONZERO = refuse`, "a word `w` is the instruction iff `w & mask == match`". -/
def Obligations.OpcodeMapSelectsByMaskAndMatch : Prop :=
  ∀ row ∈ ([(.nop, 0, "NOP", "no_oper", .z, 0x000000, 0xFFFFFF),
      (.mov, 1, "MOVur", "copy", .rr, 0x010000, 0xFF00FF),
      (.mcc, 2, "MCCur", "cond_copy", .rrc, 0x020000, 0xFF000F),
      (.add, 3, "ADDur", "add.u", .rr, 0x030000, 0xFF00FF),
      (.sub, 4, "SUBur", "sub.u", .rr, 0x040000, 0xFF00FF),
      (.not, 5, "NOTur", "not", .r, 0x050000, 0xFF0FFF),
      (.and, 6, "ANDur", "and", .rr, 0x060000, 0xFF00FF),
      (.or, 7, "ORur", "or", .rr, 0x070000, 0xFF00FF),
      (.xor, 8, "XORur", "xor", .rr, 0x080000, 0xFF00FF),
      (.shl, 9, "SHLur", "shift_left", .rr, 0x090000, 0xFF00FF),
      (.rol, 10, "ROLur", "rot_left", .rr, 0x0A0000, 0xFF00FF),
      (.shr, 11, "SHRur", "shift_right", .rr, 0x0B0000, 0xFF00FF),
      (.ror, 12, "RORur", "rot_right", .rr, 0x0C0000, 0xFF00FF),
      (.cmp, 13, "CMPur", "comp.u", .rr, 0x0D0000, 0xFF00FF),
      (.tst, 14, "TSTur", "test.u", .r, 0x0E0000, 0xFF0FFF)] :
      List (Op × Nat × String × String × Format × Word × Word)),
    row.1.subop = row.2.1 ∧ row.1.uopName = row.2.2.1 ∧ row.1.isaName = row.2.2.2.1 ∧
    row.1.format = row.2.2.2.2.1 ∧
    ∀ w : Word, (∃ i, decode .refuse w = .ok i ∧ i.op = row.1) ↔ w &&& row.2.2.2.2.2.2 = row.2.2.2.2.2.1

/-- R73: the decoding procedure, its checks in their order and the fields it returns, and its count of accepted
words, 6945; with `RESERVED_NONZERO = refuse`. -/
def Obligations.DecodingProcedureAndItsCount : Prop :=
  (∀ w : Word,
    decode .refuse w =
      if w.extractLsb' 20 4 ≠ 0 then .error .opclassOutOfScope
      else if w.extractLsb' 16 4 = 15 then .error .unassignedSubop
      else match Op.all[(w.extractLsb' 16 4).toNat]? with
        | none => .error .unassignedSubop
        | some op =>
          if (match op.format with
              | .z => w.toNat % 2 ^ 16
              | .rr => w.toNat % 2 ^ 8
              | .rrc => w.toNat % 2 ^ 4
              | .r => w.toNat % 2 ^ 12) ≠ 0 then .error .reservedFieldNonzero
          else .ok (op.instr (w.extractLsb' 4 4) (w.extractLsb' 8 4).toFin (w.extractLsb' 12 4).toFin)) ∧
  ∃ accepted : List Word, accepted.Nodup ∧ accepted.length = 6945 ∧
    ∀ w, w ∈ accepted ↔ ∃ i, decode .refuse w = .ok i

/-- R61 and R62: the places of the common fields and of the operand fields, in every word that decodes, and
their values taken as they stand. -/
def Obligations.FieldsStandInTheirPlaces : Prop :=
  ∀ (rn : ReservedNonzero) (w : Word) (i : Instr), decode rn w = .ok i →
    w.extractLsb' 20 4 = 0 ∧ (w.extractLsb' 16 4).toNat ≤ 14 ∧ (w.extractLsb' 16 4).toNat = i.op.subop ∧
    (i.op.format.hasTarget = true → i.target.val = (w.extractLsb' 12 4).toNat) ∧
    (i.op.format.hasSource = true → i.source.val = (w.extractLsb' 8 4).toNat) ∧
    (i.op.format.hasCond = true → i.cond = w.extractLsb' 4 4)

/-- Decode and encode agree, for every instruction with every operand, under either value of
`RESERVED_NONZERO`. -/
def Obligations.DecodeOfEncodeIsTheInstruction : Prop :=
  ∀ (rn : ReservedNonzero) (i : Instr), decode rn (encode i) = .ok i

/-- Every accepted word is the encoding of what it decodes to (95_test_vectors.md 2.2, "encoding the decoder's
result by rule R68 gives `w` back"); under `ignore` the encoding differs from it in reserved bits only. -/
def Obligations.EncodeOfDecodeIsTheWord : Prop :=
  ∀ (w : Word) (i : Instr),
    (decode .refuse w = .ok i → encode i = w) ∧
    (decode .ignore w = .ok i → encode i = w &&&
      (match i.op.format with | .z => 0xFF0000 | .rr => 0xFFFF00 | .rrc => 0xFFFFF0 | .r => 0xFFF000))

/-- The refusals of words the class does not define, which are the spec's decisions D15 and D16 (logs 15 and
16): other opclasses, then `subop` 1111, then a reserved field that is not zero. -/
def Obligations.UndefinedWordsAreRefusedByName : Prop :=
  ∀ (rn : ReservedNonzero) (w : Word),
    (0x100000 ≤ w.toNat → decode rn w = .error .opclassOutOfScope) ∧
    (0x0F0000 ≤ w.toNat ∧ w.toNat < 0x100000 → decode rn w = .error .unassignedSubop) ∧
    (w.toNat < 0x0F0000 → (∀ i, encode i ≠ w) → decode .refuse w = .error .reservedFieldNonzero) ∧
    (w.toNat < 0x0F0000 → ∃ i, decode .ignore w = .ok i)

/-- 30_encoding.md R76: the source register is written first and the target last, the condition of MCCur standing in the
mnemonic's suffix before both, while `DRt` stands above `DRs` in the word; `add.u d1, d2` is `0x032100`. -/
def Obligations.AssemblerOrderIsSourceThenTarget : Prop :=
  (∀ (op : Op) (s t : RegNum), op.format = .rr →
    (AsmLine.mk op none (some s.val) (some t.val)).text
      = op.isaName ++ " d" ++ Nat.repr s.val ++ ", d" ++ Nat.repr t.val ∧
    ∃ i, assemble ⟨op, none, some s.val, some t.val⟩ = some i ∧ i.op = op ∧ i.source = s ∧ i.target = t ∧
      (encode i).extractLsb' 12 4 = BitVec.ofNat 4 t.val ∧ (encode i).extractLsb' 8 4 = BitVec.ofNat 4 s.val) ∧
  (∀ (cc : CondSel) (s t : RegNum),
    (AsmLine.mk .mcc (some cc.toNat) (some s.val) (some t.val)).text
      = "cond_copy.[" ++ Nat.repr cc.toNat ++ "] d" ++ Nat.repr s.val ++ ", d" ++ Nat.repr t.val ∧
    assemble ⟨.mcc, some cc.toNat, some s.val, some t.val⟩ = some (.mccur cc s t)) ∧
  (assemble ⟨.add, none, some 1, some 2⟩).map encode = some 0x032100

/-- Every instruction has one well-formed assembler line, and assembling it gives the instruction back
(30_encoding.md R75, R77; the spellings are the spec's decision D28, log 28). -/
def Obligations.AssembleOfDisassembleIsTheInstruction : Prop :=
  ∀ i : Instr, (disassemble i).wellFormed = true ∧ assemble (disassemble i) = some i ∧
    ∀ l : AsmLine, assemble l = some i → l = disassemble i

/-- A few words of 95_test_vectors.md 2.1 and 2.2 decode to the instructions, or refusals, given there. -/
def Obligations.SampleWordsDecodeAsTheSpecWrites : Prop :=
  decode .refuse 0x000000 = .ok .nop ∧ decode .refuse 0x017300 = .ok (.movur 3 7) ∧
  decode .refuse 0x022150 = .ok (.mccur 5 1 2) ∧ decode .refuse 0x031200 = .ok (.addur 2 1) ∧
  decode .refuse 0x054000 = .ok (.notur 4) ∧ decode .refuse 0x06BA00 = .ok (.andur 10 11) ∧
  decode .refuse 0x0B2100 = .ok (.shrur 1 2) ∧ decode .refuse 0x0E9000 = .ok (.tstur 9) ∧
  decode .refuse 0x054100 = .error .reservedFieldNonzero ∧ decode .refuse 0x0FFFFF = .error .unassignedSubop ∧
  decode .refuse 0x1F0001 = .error .opclassOutOfScope

/-! ## The step -/

/-- A step runs the decoded instruction: the word at `pc` decodes to `i`, and the step is `exec i` with nothing
around it, the meaning itself advancing `pc` (00_scope.md R10, steps 1 to 5). With the mark of log 38 there is no
word to fetch: StepStopsOutsideTheProgramAndOnRefusedWords. -/
def Obligations.StepRunsTheDecodedInstruction : Prop :=
  ∀ (st : State) (w : Word) (i : Instr),
    st.pastTop = false → st.mem.word? st.pc = some w → decode st.cfg.reservedNonzero w = .ok i → step st = exec i st

/-- Instruction fetch: inside `base .. base + len - 1` the word of the list, outside no value (20_memory.md R41,
decisions D17 and D18, logs 17 and 18). -/
def Obligations.FetchReadsTheProgramList : Prop :=
  ∀ (m : Memory) (idx : Nat),
    (∀ k (hk : k < m.prog.length), idx = m.base + k → m.word? idx = some m.prog[k]) ∧
    (idx < m.base ∨ m.base + m.prog.length ≤ idx → m.word? idx = none)

/-- When a step does not execute: `Done` exactly just past the program, a refusal outside it, a refusal for a word
that does not decode; each carries the state as it was (70_reset_and_hazards.md R196, 60_exceptions.md R168;
decision D26, log 26). `st.index` is `pc`, or with the mark the index past all that `pc` can hold, where no word is
fetched (10_state.md R28; log 38). -/
def Obligations.StepStopsOutsideTheProgramAndOnRefusedWords : Prop :=
  ∀ st : State,
    (st.index = st.mem.base + st.mem.prog.length → step st = .fault (.done st)) ∧
    (st.index < st.mem.base ∨ st.mem.base + st.mem.prog.length < st.index → step st = .refused (.pcOutOfProgram st)) ∧
    (st.pastTop = true → st.index ≠ st.mem.base + st.mem.prog.length → step st = .refused (.pcOutOfProgram st)) ∧
    (∀ w r, st.pastTop = false → st.mem.word? st.pc = some w → decode st.cfg.reservedNonzero w = .error r →
      step st = .refused (.undecodable r st))

/-- R28: no run computes a wrapped `pc`. An instruction at the highest index that `pc` can hold executes with all its
writes but that of `pc`, and the very next step ends or refuses by 70_reset_and_hazards.md R196: `Done` if the
program ends there, else a refusal, for the program then goes on at an index of more than PC_WIDTH bits (decisions
D17 and D26, logs 17, 26 and 38). -/
def Obligations.RunsEndOrRefuseAfterTheHighestIndex : Prop :=
  ∀ (st st' : State), st.pc + 1 = 2 ^ st.cfg.pcWidth → step st = .next st' →
    (∃ w i, st.mem.word? st.pc = some w ∧ decode st.cfg.reservedNonzero w = .ok i ∧ exec i st = .next st') ∧
    st'.pc = st.pc ∧ st'.index = 2 ^ st'.cfg.pcWidth ∧
    (st.mem.base + st.mem.prog.length = 2 ^ st.cfg.pcWidth → step st' = .fault (.done st')) ∧
    (st.mem.base + st.mem.prog.length ≠ 2 ^ st.cfg.pcWidth → step st' = .refused (.pcOutOfProgram st'))

/-- The model's loader (log 33): an instruction's word placed at `pc` is what the next step runs, in a state
that differs in memory only, and in the mark of log 38, which is clear there. -/
def Obligations.PlacedInstructionRunsNext : Prop :=
  ∀ (st : State) (i : Instr),
    step (st.withFetchWord 24 (encode i).toNat) = exec i (st.withFetchWord 24 (encode i).toNat) ∧
    { st.withFetchWord 24 (encode i).toNat with mem := st.mem, pastTop := st.pastTop, topFits := st.topFits } = st

/-- R26, R27: `pc` is an integer of PC_WIDTH bits in every state; a step that goes on has run the instruction whose
word the program holds at that index, and has added 1 to `pc`, leaving PC_WIDTH as it was. After the highest index,
where no wrapped `pc` is computed (R28), the mark stands instead (decision D17, logs 17 and 38). -/
def Obligations.PcIsTheIndexOfTheInstructionThatRuns : Prop :=
  ∀ st : State, st.pc < 2 ^ st.cfg.pcWidth ∧ (st.pastTop = true → st.pc + 1 = 2 ^ st.cfg.pcWidth) ∧
    ∀ st', step st = .next st' →
      (∃ k w i, st.pc = st.mem.base + k ∧ st.mem.prog[k]? = some w ∧
        decode st.cfg.reservedNonzero w = .ok i ∧ exec i st = .next st') ∧
      Advanced st st' ∧ st'.index = st.index + 1 ∧ st'.cfg.pcWidth = st.cfg.pcWidth ∧
      st'.pc < 2 ^ st.cfg.pcWidth

/-! ## Results, with completion and frame -/

/-! `Advanced` is R27's `pc <- pc + 1` with the limit of R28: decision D17, logs 17 and 38, in every statement that
has it. -/

/-- NOP: nothing but `pc` changes (40_nop_copy.md R100; that `pc` counts words is decision D17, log 17). -/
def Obligations.NopChangesOnlyPc : Prop :=
  ∀ st : State, ∃ st', exec .nop st = .next st' ∧ KeepsBut [] st st' ∧ st'.z = st.z ∧ st'.c = st.c ∧
    Advanced st st'

/-- MOVur (40_nop_copy.md R101; `z` is decision D6, log 6; `pc` D17, log 17). -/
def Obligations.MovurCopiesAndSetsZ : Prop :=
  ∀ (s t : RegNum) (st : State), ∃ st', exec (.movur s t) st = .next st' ∧
    st'.readDR t = st.readDR s ∧ (st'.z = true ↔ (st.readDR s).toNat = 0) ∧ st'.c = st.c ∧
    KeepsBut [t] st st' ∧ Advanced st st'

/-- MCCur (40_nop_copy.md R102), for every instance of `condHolds` (OPEN, D14, log 14) and both values of
`MCC_FALSE` (D13, log 13); the condition is evaluated on the flags before the instruction. `z` is D6, log 6. -/
def Obligations.MccurCopiesWhenTheConditionHolds : Prop :=
  ∀ (cc : CondSel) (s t : RegNum) (st : State), ∃ st', exec (.mccur cc s t) st = .next st' ∧
    st'.c = st.c ∧ KeepsBut [t] st st' ∧ Advanced st st' ∧
    (condHolds st.cfg.cond cc st.z st.n st.c st.v = true →
      st'.readDR t = st.readDR s ∧ (st'.z = true ↔ (st.readDR s).toNat = 0)) ∧
    (condHolds st.cfg.cond cc st.z st.n st.c st.v = false → st'.readDR t = st.readDR t ∧
      (st.cfg.mccFalse = .nothing → st'.z = st.z) ∧
      (st.cfg.mccFalse = .zFromSource → (st'.z = true ↔ (st.readDR s).toNat = 0)))

/-- ADDur (41_add_sub.md R110): result and carry together are the exact sum. `z` is decision D6 (log 6), `c`
D7 (log 7). -/
def Obligations.AddurIsTheExactSumWithItsCarry : Prop :=
  ∀ (s t : RegNum) (st : State), ∃ st', exec (.addur s t) st = .next st' ∧
    (st'.readDR t).toNat + st'.c.toNat * 2 ^ 24 = (st.readDR t).toNat + (st.readDR s).toNat ∧
    (st'.z = true ↔ (st'.readDR t).toNat = 0) ∧ KeepsBut [t] st st' ∧ Advanced st st'

/-- SUBur (41_add_sub.md R111): target minus source modulo `2^24`; `z` (decision D6, log 6) says the operands
are equal; `c` under both values of `SUB_CARRY` (41_add_sub.md R112; D8, log 8). -/
def Obligations.SuburIsTheDifferenceWithItsBorrow : Prop :=
  ∀ (s t : RegNum) (st : State), ∃ st', exec (.subur s t) st = .next st' ∧
    ((st'.readDR t).toNat : Int) = ((st.readDR t).toNat - (st.readDR s).toNat : Int) % 2 ^ 24 ∧
    (st'.z = true ↔ st.readDR t = st.readDR s) ∧
    (st.cfg.subCarry = .borrow → (st'.c = true ↔ (st.readDR t).toNat < (st.readDR s).toNat)) ∧
    (st.cfg.subCarry = .notBorrow → (st'.c = true ↔ (st.readDR s).toNat ≤ (st.readDR t).toNat)) ∧
    KeepsBut [t] st st' ∧ Advanced st st'

/-- R112's second row in words: under `not_borrow`, `c` is the carry out of bit 23 of `a + (~b) + 1`. -/
def Obligations.NotBorrowIsTheCarryOfTheComplementSum : Prop :=
  ∀ a b : Word, (subCarry .notBorrow a b = true ↔ 2 ^ 24 ≤ a.toNat + (~~~b).toNat + 1) ∧
    subCarry .borrow a b = !subCarry .notBorrow a b ∧
    (a - b).toNat = (a.toNat + (~~~b).toNat + 1) % 2 ^ 24

/-- NOTur (42_logic.md R120): the complement within 24 bits; `z` (decision D6, log 6) is 1 exactly for the
operand `0xFFFFFF`; `c` is kept. -/
def Obligations.NoturComplementsWithin24Bits : Prop :=
  ∀ (t : RegNum) (st : State), ∃ st', exec (.notur t) st = .next st' ∧
    (st'.readDR t).toNat = 0xFFFFFF - (st.readDR t).toNat ∧
    (st'.z = true ↔ (st.readDR t).toNat = 0xFFFFFF) ∧ st'.c = st.c ∧ KeepsBut [t] st st' ∧ Advanced st st'

/-- ANDur, ORur, XORur (42_logic.md R121 to R123): each bit from the two operands' bits; `z` (decision D6,
log 6) from the result; `c` kept. -/
def Obligations.LogicActsOnEachBit : Prop :=
  ∀ (s t : RegNum) (st : State),
    (∃ st', exec (.andur s t) st = .next st' ∧
      (∀ i < 24, (st'.readDR t).toNat.testBit i =
        ((st.readDR t).toNat.testBit i && (st.readDR s).toNat.testBit i)) ∧
      (st'.z = true ↔ (st'.readDR t).toNat = 0) ∧ st'.c = st.c ∧ KeepsBut [t] st st' ∧ Advanced st st') ∧
    (∃ st', exec (.orur s t) st = .next st' ∧
      (∀ i < 24, (st'.readDR t).toNat.testBit i =
        ((st.readDR t).toNat.testBit i || (st.readDR s).toNat.testBit i)) ∧
      (st'.z = true ↔ (st.readDR t).toNat = 0 ∧ (st.readDR s).toNat = 0) ∧ st'.c = st.c ∧
      KeepsBut [t] st st' ∧ Advanced st st') ∧
    (∃ st', exec (.xorur s t) st = .next st' ∧
      (∀ i < 24, (st'.readDR t).toNat.testBit i =
        ((st.readDR t).toNat.testBit i ^^ (st.readDR s).toNat.testBit i)) ∧
      (st'.z = true ↔ st.readDR t = st.readDR s) ∧ st'.c = st.c ∧ KeepsBut [t] st st' ∧ Advanced st st')

/-- SHLur with an amount of 0 to 23 (43_shift_rotate.md R130): `(a * 2^k) mod 2^24`; `z` is decision D6 (log 6),
`c` the parameter SHIFT_CARRY (D10, log 10). -/
def Obligations.ShlurMultipliesByThePowerOfTwo : Prop :=
  ∀ (s t : RegNum) (st : State), (st.readDR s).toNat % 32 < 24 →
    ∃ st', exec (.shlur s t) st = .next st' ∧
      (st'.readDR t).toNat = (st.readDR t).toNat * 2 ^ ((st.readDR s).toNat % 32) % 2 ^ 24 ∧
      (st'.z = true ↔ (st'.readDR t).toNat = 0) ∧
      st'.c = shiftCarry st.cfg.shiftCarry .shl (st.readDR t) (st.amount s) st.c ∧
      KeepsBut [t] st st' ∧ Advanced st st'

/-- SHRur with an amount of 0 to 23 (43_shift_rotate.md R132): `floor(a / 2^k)`, so zeros enter (decision D11,
log 11); `z` is D6 (log 6), `c` SHIFT_CARRY (D10, log 10). -/
def Obligations.ShrurDividesByThePowerOfTwo : Prop :=
  ∀ (s t : RegNum) (st : State), (st.readDR s).toNat % 32 < 24 →
    ∃ st', exec (.shrur s t) st = .next st' ∧
      (st'.readDR t).toNat = (st.readDR t).toNat / 2 ^ ((st.readDR s).toNat % 32) ∧
      (st'.z = true ↔ (st'.readDR t).toNat = 0) ∧
      st'.c = shiftCarry st.cfg.shiftCarry .shr (st.readDR t) (st.amount s) st.c ∧
      KeepsBut [t] st st' ∧ Advanced st st'

/-- ROLur (43_shift_rotate.md R131): bit `i` goes to bit `(i + k) mod 24`, for every amount under
`ROT_RANGE = mod24` (decision D12, log 12) and for 0 to 23 under any; `z` (D6, log 6) is 1 exactly for a zero
operand; `c` is SHIFT_CARRY (D10, log 10). -/
def Obligations.RolurMovesEachBitUp : Prop :=
  ∀ (s t : RegNum) (st : State), (st.cfg.rotRange = .mod24 ∨ (st.readDR s).toNat % 32 < 24) →
    ∃ st', exec (.rolur s t) st = .next st' ∧
      (∀ i < 24, (st'.readDR t).getLsbD ((i + (st.readDR s).toNat % 32) % 24) = (st.readDR t).getLsbD i) ∧
      (st'.z = true ↔ (st.readDR t).toNat = 0) ∧
      st'.c = shiftCarry st.cfg.shiftCarry .rol (st.readDR t) (st.amount s) st.c ∧
      KeepsBut [t] st st' ∧ Advanced st st'

/-- RORur (43_shift_rotate.md R133): bit `(i + k) mod 24` goes to bit `i`; parameters and `z` as for ROLur. -/
def Obligations.RorurMovesEachBitDown : Prop :=
  ∀ (s t : RegNum) (st : State), (st.cfg.rotRange = .mod24 ∨ (st.readDR s).toNat % 32 < 24) →
    ∃ st', exec (.rorur s t) st = .next st' ∧
      (∀ i < 24, (st'.readDR t).getLsbD i = (st.readDR t).getLsbD ((i + (st.readDR s).toNat % 32) % 24)) ∧
      (st'.z = true ↔ (st.readDR t).toNat = 0) ∧
      st'.c = shiftCarry st.cfg.shiftCarry .ror (st.readDR t) (st.amount s) st.c ∧
      KeepsBut [t] st st' ∧ Advanced st st'

/-- R136's table, the default instance of SHIFT_CARRY (decision D10, log 10), as bits of the operand and as the
spec says the same in words; `keepOnZero` differs only at amount 0. -/
def Obligations.ShiftCarryIsTheLastBitOut : Prop :=
  ∀ (a : Word) (k : BitVec 5) (cOld : Bool),
    (∀ op, k = 0 → shiftCarry .lastBitOut op a k cOld = false ∧ shiftCarry .keepOnZero op a k cOld = cOld) ∧
    (∀ op, k ≠ 0 → shiftCarry .keepOnZero op a k cOld = shiftCarry .lastBitOut op a k cOld) ∧
    (k.toNat ≤ 23 → shiftCarry .lastBitOut .shl a k cOld = (a.toNat * 2 ^ k.toNat).testBit 24) ∧
    (k ≠ 0 → k.toNat ≤ 23 → shiftCarry .lastBitOut .shl a k cOld = a.getLsbD (24 - k.toNat) ∧
      shiftCarry .lastBitOut .shr a k cOld = a.getLsbD (k.toNat - 1)) ∧
    (k ≠ 0 → shiftCarry .lastBitOut .rol a k cOld = (rotl24 a (k.toNat % 24)).getLsbD 0 ∧
      shiftCarry .lastBitOut .rol a k cOld = a.getLsbD ((24 - k.toNat % 24) % 24) ∧
      shiftCarry .lastBitOut .ror a k cOld = (rotr24 a (k.toNat % 24)).getLsbD 23 ∧
      shiftCarry .lastBitOut .ror a k cOld = a.getLsbD ((k.toNat - 1) % 24))

/-- CMPur (44_compare_test.md R150): flags only. `z` (decision D6, log 6) says the registers are equal; `c`
under every value of CMP_ORDER (D9, log 9) and SUB_CARRY (D8, log 8). -/
def Obligations.CmpurWritesOnlyTheFlagsOfTheDifference : Prop :=
  ∀ (s t : RegNum) (st : State), ∃ st', exec (.cmpur s t) st = .next st' ∧ KeepsBut [] st st' ∧
    Advanced st st' ∧ (st'.z = true ↔ st.readDR t = st.readDR s) ∧
    (st.cfg.cmpOrder = .tMinusS → st.cfg.subCarry = .borrow →
      (st'.c = true ↔ (st.readDR t).toNat < (st.readDR s).toNat)) ∧
    (st.cfg.cmpOrder = .tMinusS → st.cfg.subCarry = .notBorrow →
      (st'.c = true ↔ (st.readDR s).toNat ≤ (st.readDR t).toNat)) ∧
    (st.cfg.cmpOrder = .sMinusT → st.cfg.subCarry = .borrow →
      (st'.c = true ↔ (st.readDR s).toNat < (st.readDR t).toNat)) ∧
    (st.cfg.cmpOrder = .sMinusT → st.cfg.subCarry = .notBorrow →
      (st'.c = true ↔ (st.readDR t).toNat ≤ (st.readDR s).toNat))

/-- CMPur leaves the flags SUBur would leave for the same registers, under `CMP_ORDER = t_minus_s` (44_compare_test.md
R150; decision D9, log 9), and SUBur differs from it in the target register only. -/
def Obligations.CmpurFlagsAreThoseOfSubur : Prop :=
  ∀ (s t : RegNum) (st : State), st.cfg.cmpOrder = .tMinusS →
    ∃ a b, exec (.cmpur s t) st = .next a ∧ exec (.subur s t) st = .next b ∧
      a.writeDR t (st.readDR t - st.readDR s) = b ∧ b.writeDR t (st.readDR t) = a

/-- TSTur (44_compare_test.md R151): `z` says whether the register is zero (decisions D6 and D31, logs 6 and
31), and nothing else changes but `pc`. -/
def Obligations.TsturTestsForZero : Prop :=
  ∀ (t : RegNum) (st : State), ∃ st', exec (.tstur t) st = .next st' ∧
    (st'.z = true ↔ (st.readDR t).toNat = 0) ∧ st'.c = st.c ∧ KeepsBut [] st st' ∧ Advanced st st'

/-! ## The software interrupt -/

/-- SHLur and SHRur with an amount of 24 to 31 raise the software interrupt with cause `ARITH_RANGE`
(43_shift_rotate.md R135); the outcome carries the state before the instruction whole, in which `DR[t]` rests on
the source and `z`, `c`, `pc` on the spec's decision D22 (60_exceptions.md R163; logs 21 and 22). -/
def Obligations.ShiftsOutOfRangeTrapWithNothingWritten : Prop :=
  ∀ (s t : RegNum) (st : State), 24 ≤ (st.readDR s).toNat % 32 →
    exec (.shlur s t) st = .fault (.softwareInterrupt .arithRange st) ∧
    exec (.shrur s t) st = .fault (.softwareInterrupt .arithRange st)

/-- R160: the one synchronous exception of the class. With `ROT_RANGE = mod24` an instruction stops exactly when
it is SHLur or SHRur with `DR[s][4:0]` of 24 or more, and it stops in this way only. -/
def Obligations.OnlyOutOfRangeShiftsRaiseTheInterrupt : Prop :=
  ∀ (i : Instr) (st : State), st.cfg.rotRange = .mod24 →
    (∀ f, exec i st = .fault f → ∃ carried, f = .softwareInterrupt .arithRange carried) ∧
    ((∃ f, exec i st = .fault f) ↔
      ∃ s t, (i = .shlur s t ∨ i = .shrur s t) ∧ 24 ≤ (st.readDR s).toNat % 32)

/-- A rotate by 24 to 31 under the two alternatives of ROT_RANGE (43_shift_rotate.md R131, R133; 00_scope.md R5;
that `trap` means the same interrupt as a shift's is the model's reading, log 12). -/
def Obligations.RotatesOutOfRangeFollowRotRange : Prop :=
  ∀ (s t : RegNum) (st : State), 24 ≤ (st.readDR s).toNat % 32 →
    (st.cfg.rotRange = .trap →
      exec (.rolur s t) st = .fault (.softwareInterrupt .arithRange st) ∧
      exec (.rorur s t) st = .fault (.softwareInterrupt .arithRange st)) ∧
    (st.cfg.rotRange = .refuse →
      exec (.rolur s t) st = .refused (.rotateOutOfRange st) ∧
      exec (.rorur s t) st = .refused (.rotateOutOfRange st))

/-- No instruction is refused: with `ROT_RANGE = mod24` (decision D12, log 12) every instruction, from every
state, completes with `pc` advanced (D17, logs 17 and 38) or raises the software interrupt (10_state.md R27,
60_exceptions.md R162). -/
def Obligations.EveryInstructionCompletesOrTraps : Prop :=
  ∀ (i : Instr) (st : State), st.cfg.rotRange = .mod24 →
    (∃ st', exec i st = .next st' ∧ Advanced st st') ∨
      exec i st = .fault (.softwareInterrupt .arithRange st)

/-- The trap is precise (60_exceptions.md R164; decisions D22 and D27, logs 22 and 27): the state an interrupt
carries out of a run is the one the completed instructions before it left, and stepping from it traps again. -/
def Obligations.TrapStateIsThatOfTheCompletedInstructions : Prop :=
  ∀ (k : Nat) (st x : State) (cause : Cause),
    st.run k = .fault (.softwareInterrupt cause x) →
    ∃ j < k, st.run j = .next x ∧ step x = .fault (.softwareInterrupt cause x)

/-! ## Whole-machine rules -/

/-- The register access table (10_state.md R25). Two states that agree on the registers an instruction reads (the
amount's low five bits only for a shift or rotate), on the flags and on the parameters get the same values in `z`,
`c` and the registers it writes, or stop alike; no other register changes, and a trap writes none. It rests on the
spec's decisions D29 (log 29: all reads before all writes, which the statement does not itself show), D12 (log 12: a
rotate by 24 to 31 interrupts or is refused), D13 (log 13: `z_from_source` reads the source of a false MCCur) and D22
(log 22: the trap carries `z`, `c` and `pc`). -/
def Obligations.InstructionsReadAndWriteOnlyTheirRegisters : Prop :=
  ∀ (i : Instr) (st₁ st₂ : State),
    st₁.z = st₂.z → st₁.n = st₂.n → st₁.c = st₂.c → st₁.v = st₂.v → st₁.cfg = st₂.cfg →
    readsAgree i st₁ st₂ →
    (∃ a b, exec i st₁ = .next a ∧ exec i st₂ = .next b ∧ a.z = b.z ∧ a.c = b.c ∧
      (∀ r ∈ writtenRegs i st₁, a.readDR r = b.readDR r) ∧
      (∀ r, r ∉ writtenRegs i st₁ → a.readDR r = st₁.readDR r ∧ b.readDR r = st₂.readDR r)) ∨
    (exec i st₁ = .fault (.softwareInterrupt .arithRange st₁) ∧
      exec i st₂ = .fault (.softwareInterrupt .arithRange st₂)) ∨
    (exec i st₁ = .refused (.rotateOutOfRange st₁) ∧ exec i st₂ = .refused (.rotateOutOfRange st₂))

/-- R134: the amount `k` of all four instructions is the low five bits of the source register's value before the
instruction, an unsigned number, and "Bits [23:5] of `DR[s]` have no effect on the result, the flags or the
trap": another value with the same low five bits in the source register gives the same outcome, that register
apart. What is written rests besides on the spec's decisions D6, D10, D12 and D22 (logs 6, 10, 12, 22). -/
def Obligations.AmountIsTheLowFiveBits : Prop :=
  ∀ (s t : RegNum) (st : State) (k : BitVec 5), k.toNat = (st.readDR s).toNat % 32 →
    exec (.shlur s t) st = (if 24 ≤ k.toNat then .fault (.softwareInterrupt .arithRange st)
      else .next (st.commitZC t (shiftLeft (st.readDR t) k.toNat)
        (shiftCarry st.cfg.shiftCarry .shl (st.readDR t) k st.c))) ∧
    exec (.shrur s t) st = (if 24 ≤ k.toNat then .fault (.softwareInterrupt .arithRange st)
      else .next (st.commitZC t (shiftRight (st.readDR t) k.toNat)
        (shiftCarry st.cfg.shiftCarry .shr (st.readDR t) k st.c))) ∧
    (st.cfg.rotRange = .mod24 → exec (.rolur s t) st = .next (st.commitZC t (rotl24 (st.readDR t) (k.toNat % 24))
      (shiftCarry st.cfg.shiftCarry .rol (st.readDR t) k st.c))) ∧
    (st.cfg.rotRange = .mod24 → exec (.rorur s t) st = .next (st.commitZC t (rotr24 (st.readDR t) (k.toNat % 24))
      (shiftCarry st.cfg.shiftCarry .ror (st.readDR t) k st.c))) ∧
    ∀ (w : Word) (i : Instr), i ∈ [.shlur s t, .rolur s t, .shrur s t, .rorur s t] → s ≠ t →
      w.toNat % 32 = k.toNat →
      exec i (st.writeDR s w) =
        match exec i st with
        | .next a => .next (a.writeDR s w)
        | .fault (.softwareInterrupt cause a) => .fault (.softwareInterrupt cause (a.writeDR s w))
        | .refused (.rotateOutOfRange a) => .refused (.rotateOutOfRange (a.writeDR s w))
        | other => other

/-- R34: "Within the scope, `n` and `v` are never written. Their values during a run are their values in the
launch state." -/
def Obligations.FlagsNAndVKeepTheirLaunchValues : Prop :=
  (∀ (i : Instr) (st st' : State), exec i st = .next st' → st'.n = st.n ∧ st'.v = st.v) ∧
  ∀ (k : Nat) (st st' : State), st.run k = .next st' → st'.n = st.n ∧ st'.v = st.v

/-- R42: "No instruction in scope writes instruction memory. The program text is constant during a run." The
parameters of the run are constant too. -/
def Obligations.ProgramTextIsConstant : Prop :=
  (∀ (i : Instr) (st st' : State), exec i st = .next st' →
    ∀ idx, st'.mem.word? idx = st.mem.word? idx) ∧
  ∀ (k : Nat) (st st' : State), st.run k = .next st' → st'.mem = st.mem ∧ st'.cfg = st.cfg

/-- `c` is written only where the flag table marks it (10_state.md R30; the reading of the marks is decision D4,
log 4): NOP, MOVur, MCCur, NOTur, ANDur, ORur, XORur and TSTur keep it; NOP keeps `z` too. -/
def Obligations.FlagTableMarksWhoKeepsC : Prop :=
  ∀ (cc : CondSel) (s t : RegNum) (st st' : State) (i : Instr),
    i ∈ [.nop, .movur s t, .mccur cc s t, .notur t, .andur s t, .orur s t, .xorur s t, .tstur t] →
    exec i st = .next st' → st'.c = st.c ∧ (i = .nop → st'.z = st.z)

/-- The definition of `z` (10_state.md R31; decision D6, log 6): after any instruction that wrote a register,
`z` is 1 iff that register is now zero. -/
def Obligations.ZFlagTellsWhetherTheResultIsZero : Prop :=
  ∀ (i : Instr) (st st' : State), exec i st = .next st' →
    ∀ r ∈ writtenRegs i st, (st'.z = true ↔ (st'.readDR r).toNat = 0)

/-- The invariant of a run is kept by every step, which counts the index up by one; where the program and the index
past it fit PC_WIDTH bits, `pc` itself is one higher and the mark stays clear (10_state.md R28, R27; decisions D17
and D26, logs 17, 26, 35 and 38). -/
def Obligations.StepKeepsTheRunInvariant : Prop :=
  ∀ st st' : State, st.Inv → step st = .next st' →
    st'.Inv ∧ st'.index = st.index + 1 ∧
    (st.mem.wf st.cfg.pcWidth → st'.mem.wf st'.cfg.pcWidth ∧ st'.pastTop = false ∧ st'.pc = st.pc + 1)

/-- The invariant holds at reset, whose `pc`, `base` and empty program are the model's choice (log 25), and that
program fits its PC_WIDTH (log 35). -/
def Obligations.ResetMeetsTheRunInvariant : Prop :=
  State.reset.Inv ∧ State.reset.mem.wf State.reset.cfg.pcWidth

/-- R197: "Every run of a program in scope ends after at most `len` steps", "no run is infinite": from every state,
whatever PC_WIDTH, base and program are, each step that goes on counts the index up by one and at most `len` of them
go on, so the step after them is terminal; a run that begins within the program stays within it. Where the program
fits PC_WIDTH bits the index is `pc` (log 35); after the highest index it is the mark's (log 38). -/
def Obligations.EveryRunEndsWithinTheProgramLength : Prop :=
  ∀ st : State,
    (∀ k st', st.run k = .next st' → st'.index = st.index + k ∧ k ≤ st.mem.prog.length ∧
      (st.Inv → st'.index ≤ st.mem.endIndex) ∧
      (st.Inv → st.mem.wf st.cfg.pcWidth → st'.pc = st.pc + k)) ∧
    (∀ st', st.run (st.mem.prog.length + 1) ≠ .next st')

/-- A run that is not stopped by a trap or a refusal ends in `Done`, just past the program, with the program, the
parameters, `n` and `v` of its launch (70_reset_and_hazards.md R196; decision D26, log 26); `pc` itself is there
`base + len` where that has PC_WIDTH bits (logs 35 and 38). -/
def Obligations.SafeRunsEndInDone : Prop :=
  ∀ st : State, SafeRun st →
    ∃ final, EndsIn st final ∧ final.index = st.mem.endIndex ∧
      (st.mem.wf st.cfg.pcWidth → final.pc = st.mem.endIndex) ∧ final.mem = st.mem ∧ final.cfg = st.cfg ∧
      final.n = st.n ∧ final.v = st.v

/-! ## Algebra of the instructions -/

/-- ROLur and RORur with the same amount register undo each other, for every amount (43_shift_rotate.md R133
corner case 6; `ROT_RANGE = mod24`, decision D12, log 12). -/
def Obligations.RotatesUndoEachOther : Prop :=
  ∀ (s t : RegNum) (st : State), s ≠ t → st.cfg.rotRange = .mod24 →
    (∃ a b, exec (.rolur s t) st = .next a ∧ exec (.rorur s t) a = .next b ∧ b.dr = st.dr) ∧
    (∃ a b, exec (.rorur s t) st = .next a ∧ exec (.rolur s t) a = .next b ∧ b.dr = st.dr)

/-- NOTur twice restores the register, and XORur twice with the same other source restores the target
(42_logic.md R120 corner case 4; 95_test_vectors.md section 5). -/
def Obligations.NotAndXorTwiceRestore : Prop :=
  ∀ (s t : RegNum) (st : State),
    (∃ a b, exec (.notur t) st = .next a ∧ exec (.notur t) a = .next b ∧ b.dr = st.dr) ∧
    (s ≠ t → ∃ a b, exec (.xorur s t) st = .next a ∧ exec (.xorur s t) a = .next b ∧ b.dr = st.dr)

/-- The constants a program can make from nothing (30_encoding.md R78): zero by XORur or SUBur of a register with
itself, and all ones by NOTur after either; `z` is decision D6 (log 6). -/
def Obligations.ZeroAndOnesFromAnyRegister : Prop :=
  ∀ (x : RegNum) (st : State) (i : Instr), i ∈ [.xorur x x, .subur x x] →
    ∃ a b, exec i st = .next a ∧ (a.readDR x).toNat = 0 ∧ a.z = true ∧
      exec (.notur x) a = .next b ∧ (b.readDR x).toNat = 0xFFFFFF ∧ b.z = false

/-- The parameters of the reset state are the spec's defaults (00_scope.md R5); the width of `pc` there is 24, the
model's registers, flags and mark are 0 and no program is loaded, so that its first step is `Done` (the model's
choices, logs 17, 25, 33, 36 and 38). -/
def Obligations.ResetHoldsTheDefaultsAndNoProgram : Prop :=
  State.reset.cfg.subCarry = .borrow ∧ State.reset.cfg.cmpOrder = .tMinusS ∧
  State.reset.cfg.shiftCarry = .lastBitOut ∧ State.reset.cfg.rotRange = .mod24 ∧
  State.reset.cfg.mccFalse = .nothing ∧ State.reset.cfg.cond = .uninterpreted ∧
  State.reset.cfg.reservedNonzero = .refuse ∧ State.reset.cfg.pcWidth = 24 ∧ (∀ r, State.reset.readDR r = 0) ∧
  (State.reset.z || State.reset.n || State.reset.c || State.reset.v || State.reset.pastTop) = false ∧
  State.reset.pc = State.reset.mem.base ∧ State.reset.mem.prog = [] ∧ step State.reset = .fault (.done State.reset)
end

