-- ==== Sys2Proof/Laws/Data.lean ====
section
/-! SUPPORT. The data operations and carries as numbers and bits: one lemma for each, so that no later proof
unfolds them. -/

namespace Sys2Proof.Machine

theorem State.amount_toNat (st : State) (s : RegNum) : (st.amount s).toNat = (st.readDR s).toNat % 32 := by
  simp [State.amount]

theorem outOfRange_iff {k : BitVec 5} : outOfRange k = true ↔ 24 ≤ k.toNat := by simp [outOfRange]

theorem isZero_iff_toNat {r : Word} : isZero r = true ↔ r.toNat = 0 := by
  rw [isZero, beq_iff_eq, ← BitVec.toNat_inj]; rfl

/-- The zero flag of a difference says the operands are equal (41_add_sub.md R111, 44_compare_test.md R150). -/
theorem isZero_sub {a b : Word} : isZero (a - b) = true ↔ a = b := by
  have ha := a.isLt
  have hb := b.isLt
  rw [isZero_iff_toNat, BitVec.toNat_sub, ← BitVec.toNat_inj]
  omega

theorem sum25_toNat (a b : Word) : (sum25 a b).toNat = a.toNat + b.toNat := by
  have ha := a.isLt
  have hb := b.isLt
  simp only [sum25, BitVec.toNat_add, BitVec.zeroExtend, BitVec.toNat_setWidth]
  omega

theorem sum25_low_toNat (a b : Word) :
    ((sum25 a b).extractLsb' 0 24).toNat = (a.toNat + b.toNat) % 2 ^ 24 := by
  simp [sum25_toNat]

theorem addCarry_iff {a b : Word} : addCarry a b = true ↔ 2 ^ 24 ≤ a.toNat + b.toNat := by
  have ha := a.isLt
  have hb := b.isLt
  simp only [addCarry, BitVec.getLsbD, sum25_toNat, Nat.testBit_eq_decide_div_mod_eq, decide_eq_true_eq]
  omega

theorem subCarry_borrow {a b : Word} : subCarry .borrow a b = decide (a.toNat < b.toNat) := by
  simp [subCarry, BitVec.ult]

theorem subCarry_notBorrow {a b : Word} : subCarry .notBorrow a b = decide (b.toNat ≤ a.toNat) := by
  by_cases h : a.toNat < b.toNat
  · simp [subCarry, BitVec.ult, h]
  · simp [subCarry, BitVec.ult, Nat.le_of_not_lt h]

theorem shiftLeft_toNat (a : Word) (k : Nat) : (shiftLeft a k).toNat = a.toNat * 2 ^ k % 2 ^ 24 := by
  simp [shiftLeft, Nat.shiftLeft_eq]

theorem shiftRight_toNat (a : Word) (k : Nat) : (shiftRight a k).toNat = a.toNat / 2 ^ k := by
  simp [shiftRight, Nat.shiftRight_eq_div_pow]

/-- Bit `i` of the operand goes to bit `(i + m) mod 24` (43_shift_rotate.md R131). -/
theorem rotl24_bit (a : Word) {m i : Nat} (hm : m < 24) (hi : i < 24) :
    (rotl24 a m).getLsbD ((i + m) % 24) = a.getLsbD i := by
  simp only [rotl24]
  split
  · next h => subst h; simp [Nat.mod_eq_of_lt hi]
  · by_cases h : i + m < 24
    · have e : (i + m) % 24 = i + m := Nat.mod_eq_of_lt h
      have z : a.getLsbD (24 - m + (i + m)) = false := BitVec.getLsbD_of_ge _ _ (by omega)
      have g : ¬ i + m < m := by omega
      simpa [e, z, g, BitVec.getLsbD_eq_getElem hi] using fun _ => h
    · have e : (i + m) % 24 = i + m - 24 := by omega
      have g : i + m - 24 < m := by omega
      have l : 24 - m + (i + m - 24) = i := by omega
      simp [e, g, l]

/-- Bit `i` of the operand goes to bit `(i - m) mod 24` (43_shift_rotate.md R133). -/
theorem rotr24_bit (a : Word) {m i : Nat} (hi : i < 24) :
    (rotr24 a m).getLsbD ((i + (24 - m)) % 24) = a.getLsbD i := by
  have e : (i + (24 - m)) % 24 = (i + (24 - m) % 24) % 24 := by omega
  rw [e]
  exact rotl24_bit a (Nat.mod_lt _ (by decide)) hi

end Sys2Proof.Machine
end

