-- ==== Sys2Proof/Laws/Decode.lean ====
section
/-! SUPPORT. The fields of a word as numbers. -/

namespace Sys2Proof

theorem opclassField_toNat (w : Word) : (opclassField w).toNat = w.toNat / 0x100000 := by
  have := w.isLt
  simp only [opclassField, BitVec.extractLsb'_toNat, Nat.shiftRight_eq_div_pow]
  omega

theorem subopField_toNat (w : Word) : (subopField w).toNat = w.toNat / 0x10000 % 16 := by
  simp [subopField, Nat.shiftRight_eq_div_pow]

theorem targetField_val (w : Word) : (targetField w).val = w.toNat / 0x1000 % 16 := by
  simp [targetField, Nat.shiftRight_eq_div_pow]

theorem sourceField_val (w : Word) : (sourceField w).val = w.toNat / 0x100 % 16 := by
  simp [sourceField, Nat.shiftRight_eq_div_pow]

theorem condField_toNat (w : Word) : (condField w).toNat = w.toNat / 0x10 % 16 := by
  simp [condField, Nat.shiftRight_eq_div_pow]

/-- The operation that a `subop` value selects is the one with that value. -/
theorem opOfSubop_eq_some {b : BitVec 4} {op : Op} : opOfSubop b = some op ↔ b.toNat = op.subop := by
  revert b
  cases op <;> decide

theorem opOfSubop_eq_none {b : BitVec 4} : opOfSubop b = none ↔ b.toNat = 15 := by
  revert b
  decide

theorem Op.subop_lt (op : Op) : op.subop < 15 := by cases op <;> decide

/-- The encoding formula does not overflow the word. -/
theorem encode_sum_lt (i : Instr) :
    i.op.subop * 0x10000 + i.target.val * 0x1000 + i.source.val * 0x100 + i.cond.toNat * 0x10 < 2 ^ 24 := by
  have := i.op.subop_lt
  have := i.target.isLt
  have := i.source.isLt
  have := i.cond.isLt
  omega

/-- The low four bits of every encoding are reserved and zero. -/
theorem encode_mod (i : Instr) : (encode i).toNat % 16 = 0 := by
  have h := encode_sum_lt i
  rw [encode, BitVec.toNat_ofNat, Nat.mod_eq_of_lt h]
  omega

end Sys2Proof
end

