-- ==== Sys2Proof/Laws/State.lean ====
section
/-! SUPPORT. One lemma per field per update, reads after writes, and equality of states by their parts. -/

namespace Sys2Proof.Machine

theorem atTop_iff {width pc : Nat} : atTop width pc = true ↔ pc + 1 = 2 ^ width := beq_iff_eq

/-- Below the highest index, `pc + 1` is what R27 says. -/
@[simp] theorem nextPc_eq {width pc : Nat} (h : pc + 1 < 2 ^ width) : nextPc width pc = pc + 1 :=
  if_neg (mt atTop_iff.mp (Nat.ne_of_lt h))

/-- With or without the mark, the number counted to is `pc + 1`. -/
theorem nextPc_add_atTop (width pc : Nat) : nextPc width pc + (atTop width pc).toNat = pc + 1 := by
  cases h : atTop width pc <;> simp [nextPc, h]

variable (st : State) (i : RegNum) (w : Word) (b : Bool)

@[simp] theorem State.writeDR_z : (st.writeDR i w).z = st.z := rfl
@[simp] theorem State.writeDR_n : (st.writeDR i w).n = st.n := rfl
@[simp] theorem State.writeDR_c : (st.writeDR i w).c = st.c := rfl
@[simp] theorem State.writeDR_v : (st.writeDR i w).v = st.v := rfl
@[simp] theorem State.writeDR_pc : (st.writeDR i w).pc = st.pc := rfl
@[simp] theorem State.writeDR_pastTop : (st.writeDR i w).pastTop = st.pastTop := rfl
@[simp] theorem State.writeDR_mem : (st.writeDR i w).mem = st.mem := rfl
@[simp] theorem State.writeDR_cfg : (st.writeDR i w).cfg = st.cfg := rfl

@[simp] theorem State.setZ_dr : (st.setZ b).dr = st.dr := rfl
@[simp] theorem State.setZ_z : (st.setZ b).z = b := rfl
@[simp] theorem State.setZ_n : (st.setZ b).n = st.n := rfl
@[simp] theorem State.setZ_c : (st.setZ b).c = st.c := rfl
@[simp] theorem State.setZ_v : (st.setZ b).v = st.v := rfl
@[simp] theorem State.setZ_pc : (st.setZ b).pc = st.pc := rfl
@[simp] theorem State.setZ_pastTop : (st.setZ b).pastTop = st.pastTop := rfl
@[simp] theorem State.setZ_mem : (st.setZ b).mem = st.mem := rfl
@[simp] theorem State.setZ_cfg : (st.setZ b).cfg = st.cfg := rfl
@[simp] theorem State.setZ_readDR : (st.setZ b).readDR i = st.readDR i := rfl

@[simp] theorem State.setC_dr : (st.setC b).dr = st.dr := rfl
@[simp] theorem State.setC_z : (st.setC b).z = st.z := rfl
@[simp] theorem State.setC_n : (st.setC b).n = st.n := rfl
@[simp] theorem State.setC_c : (st.setC b).c = b := rfl
@[simp] theorem State.setC_v : (st.setC b).v = st.v := rfl
@[simp] theorem State.setC_pc : (st.setC b).pc = st.pc := rfl
@[simp] theorem State.setC_pastTop : (st.setC b).pastTop = st.pastTop := rfl
@[simp] theorem State.setC_mem : (st.setC b).mem = st.mem := rfl
@[simp] theorem State.setC_cfg : (st.setC b).cfg = st.cfg := rfl
@[simp] theorem State.setC_readDR : (st.setC b).readDR i = st.readDR i := rfl

@[simp] theorem State.advance_dr : st.advance.dr = st.dr := rfl
@[simp] theorem State.advance_z : st.advance.z = st.z := rfl
@[simp] theorem State.advance_n : st.advance.n = st.n := rfl
@[simp] theorem State.advance_c : st.advance.c = st.c := rfl
@[simp] theorem State.advance_v : st.advance.v = st.v := rfl
@[simp] theorem State.advance_pc : st.advance.pc = nextPc st.cfg.pcWidth st.pc := rfl
@[simp] theorem State.advance_pastTop : st.advance.pastTop = atTop st.cfg.pcWidth st.pc := rfl
@[simp] theorem State.advance_mem : st.advance.mem = st.mem := rfl
@[simp] theorem State.advance_cfg : st.advance.cfg = st.cfg := rfl
@[simp] theorem State.advance_readDR : st.advance.readDR i = st.readDR i := rfl

@[simp] theorem State.readDR_writeDR_same : (st.writeDR i w).readDR i = w := by
  simp [State.readDR, State.writeDR]

@[simp] theorem State.readDR_writeDR_ne {st : State} {i j : RegNum} {w : Word} (h : j ≠ i) :
    (st.writeDR i w).readDR j = st.readDR j := by
  have : i.val ≠ j.val := fun e => h (Fin.ext e.symm)
  simp [State.readDR, State.writeDR, this]

theorem State.readDR_writeDR (j : RegNum) :
    (st.writeDR i w).readDR j = if j = i then w else st.readDR j := by
  by_cases h : j = i
  · subst h; simp
  · simp [h]

variable (t : RegNum) (r : Word) (carry : Bool)

@[simp] theorem State.commitZ_z : (st.commitZ t r).z = isZero r := rfl
@[simp] theorem State.commitZ_n : (st.commitZ t r).n = st.n := rfl
@[simp] theorem State.commitZ_c : (st.commitZ t r).c = st.c := rfl
@[simp] theorem State.commitZ_v : (st.commitZ t r).v = st.v := rfl
@[simp] theorem State.commitZ_pc : (st.commitZ t r).pc = nextPc st.cfg.pcWidth st.pc := rfl
@[simp] theorem State.commitZ_pastTop : (st.commitZ t r).pastTop = atTop st.cfg.pcWidth st.pc := rfl
@[simp] theorem State.commitZ_mem : (st.commitZ t r).mem = st.mem := rfl
@[simp] theorem State.commitZ_cfg : (st.commitZ t r).cfg = st.cfg := rfl
@[simp] theorem State.commitZ_readDR : (st.commitZ t r).readDR i = if i = t then r else st.readDR i :=
  State.readDR_writeDR st t r i

@[simp] theorem State.commitZC_z : (st.commitZC t r carry).z = isZero r := rfl
@[simp] theorem State.commitZC_n : (st.commitZC t r carry).n = st.n := rfl
@[simp] theorem State.commitZC_c : (st.commitZC t r carry).c = carry := rfl
@[simp] theorem State.commitZC_v : (st.commitZC t r carry).v = st.v := rfl
@[simp] theorem State.commitZC_pc : (st.commitZC t r carry).pc = nextPc st.cfg.pcWidth st.pc := rfl
@[simp] theorem State.commitZC_pastTop : (st.commitZC t r carry).pastTop = atTop st.cfg.pcWidth st.pc := rfl
@[simp] theorem State.commitZC_mem : (st.commitZC t r carry).mem = st.mem := rfl
@[simp] theorem State.commitZC_cfg : (st.commitZC t r carry).cfg = st.cfg := rfl
@[simp] theorem State.commitZC_readDR :
    (st.commitZC t r carry).readDR i = if i = t then r else st.readDR i :=
  State.readDR_writeDR st t r i

theorem isZero_iff : isZero r = true ↔ r = 0 := by simp [isZero]

@[simp] theorem State.index_eq_pc {st : State} (h : st.pastTop = false) : st.index = st.pc := by
  simp [State.index, h]

/-- The index an advance counts to, from a state without the mark. -/
theorem State.advance_index {st : State} (h : st.pastTop = false) : st.advance.index = st.index + 1 := by
  simp [State.index, h, nextPc_add_atTop]

/-- The mark says exactly that the index counted to has more than PC_WIDTH bits. -/
theorem State.pastTop_iff {st : State} : st.pastTop = true ↔ st.index = 2 ^ st.cfg.pcWidth := by
  have := st.pcFits
  have := st.topFits
  cases h : st.pastTop <;> simp_all [State.index]; omega

/-- Two states with equal parts, the registers read one by one, are equal. -/
theorem State.ext_parts {a b : State} (hr : ∀ i, a.readDR i = b.readDR i) (hz : a.z = b.z) (hn : a.n = b.n)
    (hc : a.c = b.c) (hv : a.v = b.v) (hpc : a.pc = b.pc)
    (htop : a.pastTop = b.pastTop) (hm : a.mem = b.mem) (hcfg : a.cfg = b.cfg) :
    a = b := by
  have hd : a.dr = b.dr := Vector.ext fun k hk => hr ⟨k, hk⟩
  cases a
  cases b
  simp_all

end Sys2Proof.Machine
end

