-- ==== Sys2Proof/Laws/Memory.lean ====
section
/-! SUPPORT. Instruction memory: what a fetch reads, that memories which read alike are equal, and that every
operation keeps the well-formedness. -/

namespace Sys2Proof.Machine

theorem Memory.word?_eq_some {m : Memory} {idx : Nat} {w : Word} (h : m.word? idx = some w) :
    m.base ≤ idx ∧ idx < m.endIndex := by
  simp only [Memory.word?] at h
  split at h
  · obtain ⟨hlt, -⟩ := List.getElem?_eq_some_iff.mp h
    exact ⟨by assumption, by simp only [Memory.endIndex]; omega⟩
  · cases h

theorem Memory.word?_eq_none_iff {m : Memory} {idx : Nat} :
    m.word? idx = none ↔ idx < m.base ∨ m.endIndex ≤ idx := by
  simp only [Memory.word?, Memory.endIndex]
  split
  · rw [List.getElem?_eq_none_iff]; omega
  · simp; omega

/-- What a fetch reads: the word at `pc`, where the mark is clear. -/
theorem State.fetch_eq_some {st : State} {w : Word} :
    st.fetch = some w ↔ st.pastTop = false ∧ st.mem.word? st.pc = some w := by
  cases h : st.pastTop <;> simp [State.fetch, h]

/-- The canonical form: memories with the same base that read alike are the same data. -/
theorem Memory.eq_of_word? {m m' : Memory} (hb : m.base = m'.base) (h : ∀ idx, m.word? idx = m'.word? idx) :
    m = m' := by
  have hp : m.prog = m'.prog := List.ext_getElem? fun k => by
    have hk := h (m.base + k)
    simp only [Memory.word?, ← hb, Nat.le_add_right, if_true, Nat.add_sub_cancel_left] at hk
    exact hk
  cases m
  cases m'
  simp_all

theorem Memory.place_word? (m : Memory) (idx : Nat) (w : Word) : (m.place idx w).word? idx = some w := by
  simp only [Memory.place]
  split
  · next h =>
    have : idx - m.base < m.prog.length := by have := h.2; simp only [Memory.endIndex] at this; omega
    simp [Memory.word?, h.1, this]
  · simp [Memory.word?]

/-- The loader's write keeps the well-formedness wherever the index after the word still fits. -/
theorem Memory.place_wf {m : Memory} {width idx : Nat} (h : m.wf width) (hi : idx + 1 < 2 ^ width) (w : Word) :
    (m.place idx w).wf width := by
  simp only [Memory.place]
  split
  · simpa [Memory.wf, Memory.endIndex] using h
  · simpa [Memory.wf, Memory.endIndex] using hi

/-- The memory as pairs of an index and its word. -/
def Memory.cells (m : Memory) : List (Nat × Word) := m.prog.mapIdx fun k w => (m.base + k, w)

/-- The pairs stand in strictly rising order of index. -/
theorem Memory.cells_rising (m : Memory) : m.cells.Pairwise (fun a b => a.1 < b.1) := by
  rw [List.pairwise_iff_getElem]
  intro i j hi hj h
  simpa [Memory.cells] using h

/-- Exactly the indices that have a value are listed, each with that value. -/
theorem Memory.mem_cells_iff (m : Memory) (idx : Nat) (w : Word) : (idx, w) ∈ m.cells ↔ m.word? idx = some w := by
  simp only [Memory.cells, List.mem_mapIdx, Prod.mk.injEq, Memory.word?]
  constructor
  · rintro ⟨k, hk, rfl, rfl⟩
    simp [hk]
  · intro h
    split at h
    · next hb =>
      obtain ⟨hk, hw⟩ := List.getElem?_eq_some_iff.mp h
      exact ⟨idx - m.base, hk, by omega, hw⟩
    · cases h

/-- The empty program at index 0 fits a program counter of any width. -/
theorem reset_mem_wf (width : Nat) : State.reset.mem.wf width := Nat.two_pow_pos _

end Sys2Proof.Machine
end

