-- ==== Sys2Proof/Laws/Exec.lean ====
section
/-! SUPPORT. Everything a shift, a rotate, an instruction and a step can do, said once. -/

namespace Sys2Proof.Machine

/-- A shift traps or completes, by its amount alone. -/
theorem shiftBy_cases (op : ShiftOp) (f : Word → Nat → Word) (s t : RegNum) (st : State) :
    (24 ≤ (st.amount s).toNat ∧ shiftBy op f s t st = raiseInterrupt .arithRange st) ∨
    ((st.amount s).toNat < 24 ∧
      shiftBy op f s t st = .next (commitShift op s t (f (st.readDR t) (st.amount s).toNat) st)) := by
  by_cases h : 24 ≤ (st.amount s).toNat
  · exact .inl ⟨h, by simp [shiftBy, outOfRange, h]⟩
  · exact .inr ⟨Nat.lt_of_not_le h, by simp [shiftBy, outOfRange, h]⟩

/-- A rotate completes when its amount is below 24 or ROT_RANGE is `mod24`; otherwise it stops by ROT_RANGE. -/
theorem rotateBy_cases (op : ShiftOp) (f : Word → Nat → Word) (s t : RegNum) (st : State) :
    (((st.amount s).toNat < 24 ∨ st.cfg.rotRange = .mod24) ∧
      rotateBy op f s t st = .next (commitShift op s t (f (st.readDR t) ((st.amount s).toNat % 24)) st)) ∨
    (24 ≤ (st.amount s).toNat ∧ st.cfg.rotRange = .trap ∧
      rotateBy op f s t st = raiseInterrupt .arithRange st) ∨
    (24 ≤ (st.amount s).toNat ∧ st.cfg.rotRange = .refuse ∧
      rotateBy op f s t st = .refused (.rotateOutOfRange st)) := by
  by_cases h : 24 ≤ (st.amount s).toNat
  · cases hr : st.cfg.rotRange with
    | mod24 => exact .inl ⟨.inr rfl, by simp [rotateBy, outOfRange, h, hr]⟩
    | trap => exact .inr (.inl ⟨h, rfl, by simp [rotateBy, outOfRange, h, hr]⟩)
    | refuse => exact .inr (.inr ⟨h, rfl, by simp [rotateBy, outOfRange, h, hr]⟩)
  · exact .inl ⟨.inl (Nat.lt_of_not_le h), by simp [rotateBy, outOfRange, h]⟩

/-- MCCur's other branch moves nothing but `z` and `pc`. -/
theorem notCopied_eq (s : RegNum) (st : State) :
    notCopied s st = (st.setZ (if st.cfg.mccFalse = .nothing then st.z else isZero (st.readDR s))).advance := by
  cases h : st.cfg.mccFalse <;> simp only [notCopied, h] <;> rfl

/-- The next state of any instruction: registers, `z` and `c` may differ, and `pc` advances; nothing else. -/
theorem exec_next_shape {i : Instr} {st st' : State} (h : exec i st = .next st') :
    ∃ dr z c, st' = ({ st with dr := dr, z := z, c := c } : State).advance := by
  have shift : ∀ op f s t, shiftBy op f s t st = .next st' →
      ∃ dr z c, st' = ({ st with dr := dr, z := z, c := c } : State).advance := by
    intro op f s t hs
    obtain ⟨-, e⟩ | ⟨-, e⟩ := shiftBy_cases op f s t st <;> rw [e] at hs <;> cases hs
    exact ⟨_, _, _, rfl⟩
  have rotate : ∀ op f s t, rotateBy op f s t st = .next st' →
      ∃ dr z c, st' = ({ st with dr := dr, z := z, c := c } : State).advance := by
    intro op f s t hs
    obtain ⟨-, e⟩ | ⟨-, -, e⟩ | ⟨-, -, e⟩ := rotateBy_cases op f s t st <;> rw [e] at hs <;> cases hs
    exact ⟨_, _, _, rfl⟩
  cases i with
  | nop | movur s t | addur s t | subur s t | notur t | andur s t | orur s t | xorur s t | cmpur s t | tstur t =>
    cases h; exact ⟨_, _, _, rfl⟩
  | mccur cc s t =>
    simp only [exec, execMccur, notCopied_eq] at h
    cases h
    split <;> exact ⟨_, _, _, rfl⟩
  | shlur s t => exact shift _ _ s t h
  | shrur s t => exact shift _ _ s t h
  | rolur s t => exact rotate _ _ s t h
  | rorur s t => exact rotate _ _ s t h

/-- A step that goes on has run the instruction decoded from the word at `pc`. -/
theorem step_next {st st' : State} (h : step st = .next st') :
    ∃ w i, st.fetch = some w ∧ decode st.cfg.reservedNonzero w = .ok i ∧ exec i st = .next st' := by
  simp only [step] at h
  split at h
  · simp only [State.endOfProgram] at h
    split at h <;> cases h
  · next w hw =>
    split at h
    · cases h
    · next i hi => exact ⟨w, i, hw, hi, h⟩

end Sys2Proof.Machine
end

