-- ==== Sys2Proof/Laws/PerInstr.lean ====
section
/-! SUPPORT. One lemma per instruction about its encoding: which fields its word has. -/

namespace Sys2Proof.Laws.EncodedFields

open Sys2Proof

/-- The word of an instruction has opclass 0, its operation's `subop`, its operands in their places, and a zero
reserved field (30_encoding.md R61 to R68). -/
def Statement (i : Instr) : Prop :=
  opclassField (encode i) = 0 ∧ opOfSubop (subopField (encode i)) = some i.op ∧
    targetField (encode i) = i.target ∧ sourceField (encode i) = i.source ∧ condField (encode i) = i.cond ∧
    reservedZero (encode i) i.op.format = true

/-- The fields of any word of the encoding formula, whatever its operands. -/
theorem fields_of_sum {w : Word} {o : Nat} {t s : RegNum} {cc : CondSel} (ho : o < 15)
    (hw : w = BitVec.ofNat 24 (o * 0x10000 + t.val * 0x1000 + s.val * 0x100 + cc.toNat * 0x10)) :
    opclassField w = 0 ∧ (subopField w).toNat = o ∧ targetField w = t ∧ sourceField w = s ∧ condField w = cc ∧
      w.toNat = o * 0x10000 + t.val * 0x1000 + s.val * 0x100 + cc.toNat * 0x10 := by
  have ht := t.isLt
  have hs := s.isLt
  have hc := cc.isLt
  have e : w.toNat = o * 0x10000 + t.val * 0x1000 + s.val * 0x100 + cc.toNat * 0x10 := by
    rw [hw, BitVec.toNat_ofNat]; omega
  refine ⟨BitVec.eq_of_toNat_eq ?_, ?_, Fin.ext ?_, Fin.ext ?_, BitVec.eq_of_toNat_eq ?_, e⟩
  · rw [opclassField_toNat, e]; simp only [BitVec.ofNat_eq_ofNat, BitVec.toNat_ofNat]; omega
  · rw [subopField_toNat, e]; omega
  · rw [targetField_val, e]; omega
  · rw [sourceField_val, e]; omega
  · rw [condField_toNat, e]; omega

/-- What is left to show for one instruction: the operands its format lacks are 0. -/
theorem of_reserved {i : Instr}
    (h : ∀ w : Word, w.toNat = i.op.subop * 0x10000 + i.target.val * 0x1000 + i.source.val * 0x100
      + i.cond.toNat * 0x10 → reservedZero w i.op.format = true) : Statement i := by
  obtain ⟨h1, h2, h3, h4, h5, h6⟩ := fields_of_sum i.op.subop_lt (rfl : encode i = _)
  exact ⟨h1, opOfSubop_eq_some.mpr h2, h3, h4, h5, h _ h6⟩

theorem rr_reserved {w : Word} {o t s : Nat} (h : w.toNat = o * 0x10000 + t * 0x1000 + s * 0x100 + 0 * 0x10) :
    reservedZero w .rr = true := by
  simp only [reservedZero, beq_iff_eq]
  apply BitVec.eq_of_toNat_eq
  simp only [BitVec.extractLsb'_toNat, Nat.shiftRight_zero, h, BitVec.ofNat_eq_ofNat, BitVec.toNat_ofNat]
  omega

theorem rrc_reserved {w : Word} {o t s c : Nat} (h : w.toNat = o * 0x10000 + t * 0x1000 + s * 0x100 + c * 0x10) :
    reservedZero w .rrc = true := by
  simp only [reservedZero, beq_iff_eq]
  apply BitVec.eq_of_toNat_eq
  simp only [BitVec.extractLsb'_toNat, Nat.shiftRight_zero, h, BitVec.ofNat_eq_ofNat, BitVec.toNat_ofNat]
  omega

theorem r_reserved {w : Word} {o t : Nat} (h : w.toNat = o * 0x10000 + t * 0x1000 + 0 * 0x100 + 0 * 0x10) :
    reservedZero w .r = true := by
  simp only [reservedZero, beq_iff_eq]
  apply BitVec.eq_of_toNat_eq
  simp only [BitVec.extractLsb'_toNat, Nat.shiftRight_zero, h, BitVec.ofNat_eq_ofNat, BitVec.toNat_ofNat]
  omega

theorem nop : Statement .nop := by simp only [Statement]; decide
theorem movur (s t : RegNum) : Statement (.movur s t) := of_reserved fun _ h => rr_reserved h
theorem mccur (cc : CondSel) (s t : RegNum) : Statement (.mccur cc s t) := of_reserved fun _ h => rrc_reserved h
theorem addur (s t : RegNum) : Statement (.addur s t) := of_reserved fun _ h => rr_reserved h
theorem subur (s t : RegNum) : Statement (.subur s t) := of_reserved fun _ h => rr_reserved h
theorem notur (t : RegNum) : Statement (.notur t) := of_reserved fun _ h => r_reserved h
theorem andur (s t : RegNum) : Statement (.andur s t) := of_reserved fun _ h => rr_reserved h
theorem orur (s t : RegNum) : Statement (.orur s t) := of_reserved fun _ h => rr_reserved h
theorem xorur (s t : RegNum) : Statement (.xorur s t) := of_reserved fun _ h => rr_reserved h
theorem shlur (s t : RegNum) : Statement (.shlur s t) := of_reserved fun _ h => rr_reserved h
theorem rolur (s t : RegNum) : Statement (.rolur s t) := of_reserved fun _ h => rr_reserved h
theorem shrur (s t : RegNum) : Statement (.shrur s t) := of_reserved fun _ h => rr_reserved h
theorem rorur (s t : RegNum) : Statement (.rorur s t) := of_reserved fun _ h => rr_reserved h
theorem cmpur (s t : RegNum) : Statement (.cmpur s t) := of_reserved fun _ h => rr_reserved h
theorem tstur (t : RegNum) : Statement (.tstur t) := of_reserved fun _ h => r_reserved h

end Sys2Proof.Laws.EncodedFields
end

