-- ==== Sys2Proof/Laws/Run.lean ====
section
/-! SUPPORT. Runs: their unfolding, and the two inductions over them packaged once. -/

namespace Sys2Proof.Machine

@[simp] theorem State.run_zero (st : State) : st.run 0 = .next st := rfl

theorem State.run_succ (st : State) (k : Nat) :
    st.run (k + 1) = match step st with
      | .next st' => st'.run k
      | .fault f => .fault f
      | .refused r => .refused r := by
  cases h : step st <;> simp [State.run, Host.Core.run, show Sys2Proof.core.step st = step st from rfl, h] <;> rfl

/-- A run that goes on: what a step that goes on composes with holds between its ends. -/
theorem State.run_next_induct {P : State → State → Prop} (refl : ∀ st, P st st)
    (head : ∀ st mid st', step st = .next mid → P mid st' → P st st') :
    ∀ {k : Nat} {st st' : State}, st.run k = .next st' → P st st' := by
  intro k
  induction k with
  | zero => intro st st' h; cases h; exact refl st
  | succ k ih =>
    intro st st' h
    rw [State.run_succ] at h
    cases hs : step st with
    | next mid => rw [hs] at h; exact head st mid st' hs (ih h)
    | fault f => rw [hs] at h; cases h
    | refused r => rw [hs] at h; cases h

/-- A step that goes on stays on the program: it has fetched a word at `pc`, advances, and keeps the program and the
parameters. -/
theorem step_next_frame {st st' : State} (h : step st = .next st') :
    st'.mem = st.mem ∧ st'.cfg = st.cfg ∧ st'.pc = nextPc st.cfg.pcWidth st.pc ∧
      st'.pastTop = atTop st.cfg.pcWidth st.pc ∧ st.pastTop = false ∧ st.mem.base ≤ st.pc ∧ st.pc < st.mem.endIndex := by
  obtain ⟨w, i, hw, -, he⟩ := step_next h
  obtain ⟨_, _, _, rfl⟩ := exec_next_shape he
  obtain ⟨ht, hw⟩ := State.fetch_eq_some.mp hw
  exact ⟨rfl, rfl, rfl, rfl, ht, Memory.word?_eq_some hw⟩

/-- Each step that goes on counts the index up by one. -/
theorem step_next_index {st st' : State} (h : step st = .next st') : st'.index = st.index + 1 := by
  obtain ⟨-, -, hp, ht, hf, -⟩ := step_next_frame h
  simp [State.index, hp, ht, hf, nextPc_add_atTop]

/-- A `pc` and mark as `State.advance` computes them have advanced. -/
theorem advanced_of_pc {st st' : State} (h : st'.pc = nextPc st.cfg.pcWidth st.pc)
    (ht : st'.pastTop = atTop st.cfg.pcWidth st.pc) : Advanced st st' :=
  ⟨fun fits => ⟨h.trans (nextPc_eq fits), ht.trans (Bool.eq_false_iff.mpr (mt atTop_iff.mp (Nat.ne_of_lt fits)))⟩,
    fun top => ⟨h.trans (if_pos (atTop_iff.mpr top)), ht.trans (atTop_iff.mpr top)⟩⟩

end Sys2Proof.Machine
end

