-- ==== Sys2Proof/Tests/Slice0.lean ====
section
/-! SUPPORT. Tests. Expected values are those of 95_test_vectors.md and of the rules' own examples; "witness"
theorems show that the hypotheses of a statement are met. -/

namespace Sys2Proof.Tests

open Sys2Proof Sys2Proof.Machine

/-- A state with `DR[1]`, `DR[2]` and the flags given, the rest as at reset. -/
def small (d1 d2 : Word) (z n c v : Bool) : State :=
  { ((State.reset.writeDR 1 d1).writeDR 2 d2) with z := z, n := n, c := c, v := v }

/-- The flags as the spec writes them, `zncv`. -/
def zncv (st : State) : List Nat := [st.z.toNat, st.n.toNat, st.c.toNat, st.v.toNat]

/-- The outcome is a next state in which `DR[2]`, the flags and `pc` are these. -/
def goesTo (o : Outcome) (d2 : Word) (flags : List Nat) (pc : Nat := 1) : Bool :=
  match o with
  | .next st => st.readDR 2 == d2 && zncv st == flags && st.pc == pc
  | _ => false

/-- The outcome is the software interrupt, carrying this state. -/
def trapsWith (o : Outcome) (before : State) : Bool :=
  match o with
  | .fault (.softwareInterrupt .arithRange st) => st == before
  | _ => false

/-! ## Well-formedness: a term for each check, which the check refuses -/

theorem test_wf_operand_missing : (AsmLine.mk .add none (some 1) none).operandsFit = false := by decide
theorem test_wf_condition_on_add : (AsmLine.mk .add (some 3) (some 1) (some 2)).operandsFit = false := by decide
theorem test_wf_condition_16 : (AsmLine.mk .mcc (some 16) (some 1) (some 2)).condInRange = false := by decide
theorem test_wf_source_d16 : (AsmLine.mk .add none (some 16) (some 2)).sourceInRange = false := by decide
theorem test_wf_target_d16 : (AsmLine.mk .not none none (some 16)).targetInRange = false := by decide
theorem test_wf_all : (AsmLine.mk .mcc (some 15) (some 15) (some 0)).wellFormed = true := by decide
theorem test_ill_formed_not_assembled : assemble ⟨.add, none, some 16, some 2⟩ = none := by decide

/-! ## Decoding: words written out bit by bit from the bit-range tables (95 section 1.2, 2.1) -/

theorem test_decode_nop : decode .refuse 0b0000_0000_0000_0000_0000_0000 = .ok .nop := rfl
theorem test_decode_mov : decode .refuse 0b0000_0001_0111_0011_0000_0000 = .ok (.movur 3 7) := rfl
theorem test_decode_mcc : decode .refuse 0b0000_0010_0010_0001_0101_0000 = .ok (.mccur 5 1 2) := rfl
theorem test_decode_add : decode .refuse 0b0000_0011_0010_0001_0000_0000 = .ok (.addur 1 2) := rfl
theorem test_decode_sub : decode .refuse 0b0000_0100_0010_0001_0000_0000 = .ok (.subur 1 2) := rfl
theorem test_decode_not : decode .refuse 0b0000_0101_0100_0000_0000_0000 = .ok (.notur 4) := rfl
theorem test_decode_and : decode .refuse 0b0000_0110_1011_1010_0000_0000 = .ok (.andur 10 11) := rfl
theorem test_decode_or : decode .refuse 0b0000_0111_0010_0001_0000_0000 = .ok (.orur 1 2) := rfl
theorem test_decode_xor : decode .refuse 0b0000_1000_1000_1000_0000_0000 = .ok (.xorur 8 8) := rfl
theorem test_decode_shl : decode .refuse 0b0000_1001_0010_0001_0000_0000 = .ok (.shlur 1 2) := rfl
theorem test_decode_rol : decode .refuse 0b0000_1010_0010_0001_0000_0000 = .ok (.rolur 1 2) := rfl
theorem test_decode_shr : decode .refuse 0b0000_1011_0010_0001_0000_0000 = .ok (.shrur 1 2) := rfl
theorem test_decode_ror : decode .refuse 0b0000_1100_0010_0001_0000_0000 = .ok (.rorur 1 2) := rfl
theorem test_decode_cmp : decode .refuse 0b0000_1101_0010_0001_0000_0000 = .ok (.cmpur 1 2) := rfl
theorem test_decode_tst : decode .refuse 0b0000_1110_1001_0000_0000_0000 = .ok (.tstur 9) := rfl

/-- 95 section 2.2: words at the edges of acceptance. -/
theorem test_decode_refusals :
    decode .refuse 0x000001 = .error .reservedFieldNonzero ∧
    decode .refuse 0x001000 = .error .reservedFieldNonzero ∧
    decode .refuse 0x017350 = .error .reservedFieldNonzero ∧
    decode .refuse 0x022158 = .error .reservedFieldNonzero ∧
    decode .refuse 0x0E9900 = .error .reservedFieldNonzero ∧
    decode .refuse 0x0F0000 = .error .unassignedSubop ∧
    decode .refuse 0x0FFFFF = .error .unassignedSubop ∧
    decode .refuse 0x1F0001 = .error .opclassOutOfScope := ⟨rfl, rfl, rfl, rfl, rfl, rfl, rfl, rfl⟩

/-- `RESERVED_NONZERO = ignore` (D15): the word is read as if its reserved field were zero. -/
theorem test_decode_ignore : decode .ignore 0x054100 = .ok (.notur 4) := rfl

/-- 30_encoding.md R76, R77. -/
theorem test_assembler_text : (disassemble (.addur 1 2)).text = "add.u d1, d2" := by decide
theorem test_assembler_cond : (disassemble (.mccur 10 4 4)).text = "cond_copy.[10] d4, d4" := by decide
theorem test_table_word : decodeTableWord 24 0x0221F0 = some (.mccur 15 1 2) := by decide

/-! ## Execution: at most two one-step tests an instruction, from 95 section 3 -/

theorem test_nop : goesTo (exec .nop (small 7 9 true false true true)) 9 [1, 0, 1, 1] = true := by decide
theorem test_mov_zero : goesTo (exec (.movur 1 2) (small 0 0x111111 false false false false)) 0 [1, 0, 0, 0] = true := by
  decide
theorem test_mov_high_bit :
    goesTo (exec (.movur 1 2) (small 0x800000 0x111111 true true true true)) 0x800000 [0, 1, 1, 1] = true := by decide

/-- 95 section 3.1: both outcomes of `cond_copy.[5] d1, d2`, each under an instance of `condHolds` supplied as a
table: bit 5 * 16 + 2 is `condHolds(5, 0, 0, 1, 0)`. -/
theorem test_mcc_taken :
    goesTo (exec (.mccur 5 1 2)
      { small 0 0x123456 false false true false with cfg := { specConfig with cond := .table (1 <<< 82) } })
      0 [1, 0, 1, 0] = true := by decide
theorem test_mcc_not_taken :
    goesTo (exec (.mccur 5 1 2)
      { small 0 0x123456 false false true false with cfg := { specConfig with cond := .table 0 } })
      0x123456 [0, 0, 1, 0] = true := by decide

theorem test_add_wraps :
    goesTo (exec (.addur 1 2) (small 1 0xFFFFFF true true false true)) 0 [1, 1, 1, 1] = true := by decide
theorem test_add_signed_overflow_keeps_v :
    goesTo (exec (.addur 1 2) (small 1 0x7FFFFF true true false true)) 0x800000 [0, 1, 0, 1] = true := by decide
theorem test_sub_borrows :
    goesTo (exec (.subur 1 2) (small 5 3 false false false false)) 0xFFFFFE [0, 0, 1, 0] = true := by decide
theorem test_sub_not_borrow :
    goesTo (exec (.subur 1 2)
      { small 5 3 false false false false with cfg := { specConfig with subCarry := .notBorrow } })
      0xFFFFFE [0, 0, 0, 0] = true := by decide
theorem test_not : goesTo (exec (.notur 2) (small 0 0xFFFFFF false false true false)) 0 [1, 0, 1, 0] = true := by decide
theorem test_and :
    goesTo (exec (.andur 1 2) (small 0x0F0F0F 0xFF00FF false false true false)) 0x0F000F [0, 0, 1, 0] = true := by decide
theorem test_or :
    goesTo (exec (.orur 1 2) (small 0x0F0F0F 0xFF00FF false false true false)) 0xFF0FFF [0, 0, 1, 0] = true := by decide
theorem test_xor :
    goesTo (exec (.xorur 1 2) (small 0x0F0F0F 0xFF00FF false false true false)) 0xF00FF0 [0, 0, 1, 0] = true := by decide
theorem test_xor_same :
    goesTo (exec (.xorur 2 2) (small 0 0x00BEEF false false true false)) 0 [1, 0, 1, 0] = true := by decide
theorem test_shl_23 :
    goesTo (exec (.shlur 1 2) (small 0xFFFFF7 0x123456 false false true false)) 0 [1, 0, 1, 0] = true := by decide
theorem test_shl_same_register :
    goesTo (exec (.shlur 2 2) (small 0 3 false false true false)) 0x18 [0, 0, 0, 0] = true := by decide
theorem test_rol_31 :
    goesTo (exec (.rolur 1 2) (small 0x1F 0x123456 false false true false)) 0x1A2B09 [0, 0, 1, 0] = true := by decide
theorem test_rol_24_carry :
    goesTo (exec (.rolur 1 2) (small 0x18 0x800001 false false true false)) 0x800001 [0, 0, 1, 0] = true := by decide
theorem test_shr_fills_zero :
    goesTo (exec (.shrur 1 2) (small 1 0x800001 false false true false)) 0x400000 [0, 0, 1, 0] = true := by decide
theorem test_shr_traps :
    trapsWith (exec (.shrur 1 2) (small 0x38 0x123456 false false true false)) (small 0x38 0x123456 false false true false)
      = true := by decide
theorem test_ror_25 :
    goesTo (exec (.rorur 1 2) (small 0x19 0x123456 false false true false)) 0x091A2B [0, 0, 0, 0] = true := by decide
theorem test_ror_same_register :
    goesTo (exec (.rorur 2 2) (small 0 0x1C false false true false)) 0xC00001 [0, 0, 1, 0] = true := by decide
theorem test_cmp_unsigned :
    goesTo (exec (.cmpur 1 2) (small 0x7FFFFF 0x800000 false true false true)) 0x800000 [0, 1, 0, 1] = true := by decide
theorem test_cmp_equal :
    goesTo (exec (.cmpur 1 2) (small 7 7 false true false true)) 7 [1, 1, 0, 1] = true := by decide
theorem test_tst :
    goesTo (exec (.tstur 2) (small 0 0x800000 true false true false)) 0x800000 [0, 0, 1, 0] = true := by decide

/-- The first instruction after reset, placed as the host places it; `0x0D2100` compares two zero registers. -/
theorem test_step_after_reset :
    goesTo (step (State.reset.withFetchWord 24 0x0D2100)) 0 [1, 0, 0, 0] = true := by decide

/-! ## Witnesses of the statements' hypotheses, at the edges of each range -/

/-- OpcodeMapSelectsByMaskAndMatch: a word each way. -/
theorem witness_mask_match : (0x02FFF0 : Word) &&& 0xFF000F = 0x020000 ∧ (0x02FFF1 : Word) &&& 0xFF000F ≠ 0x020000 := by
  decide

/-- FieldsStandInTheirPlaces, EncodeOfDecodeIsTheWord: words that decode, one with reserved bits under `ignore`. -/
theorem witness_decodes :
    decode .refuse 0x02FFF0 = .ok (.mccur 15 15 15) ∧ decode .ignore 0x0E9FFF = .ok (.tstur 9) := ⟨rfl, rfl⟩

/-- UndefinedWordsAreRefusedByName: the ends of each range. -/
theorem witness_undefined_words :
    0x100000 ≤ (0x100000 : Word).toNat ∧ 0x100000 ≤ (0xFFFFFF : Word).toNat ∧
    (0x0F0000 ≤ (0x0F0000 : Word).toNat ∧ (0x0F0000 : Word).toNat < 0x100000) ∧
    (0x0F0000 ≤ (0x0FFFFF : Word).toNat ∧ (0x0FFFFF : Word).toNat < 0x100000) := by decide
theorem witness_reserved_words (w : Word) (h : w = 0x000001 ∨ w = 0x0EFFFF) :
    w.toNat < 0x0F0000 ∧ ∀ i, encode i ≠ w := by
  refine ⟨by rcases h with rfl | rfl <;> decide, fun i e => ?_⟩
  have := encode_mod i
  rw [e] at this
  rcases h with rfl | rfl <;> revert this <;> decide

/-- AssembleOfDisassembleIsTheInstruction: a line that assembles. -/
theorem witness_assembles : assemble ⟨.not, none, none, some 15⟩ = some (.notur 15) := by decide

/-- AssemblerOrderIsSourceThenTarget. -/
theorem witness_rr : (Op.cmp).format = .rr := rfl

/-- A state about to run the one instruction of a loaded program at index 0x100. -/
def loaded (w : Word) : State :=
  { small 0x18 0x800001 false false true false with
    pc := 0x100, mem := { base := 0x100, prog := [w] }, pcFits := by decide, topFits := .inl rfl }

/-- StepRunsTheDecodedInstruction. -/
theorem witness_step_runs :
    (loaded 0x0A2100).pastTop = false ∧ (loaded 0x0A2100).mem.word? (loaded 0x0A2100).pc = some 0x0A2100 ∧
    decode (loaded 0x0A2100).cfg.reservedNonzero 0x0A2100 = .ok (.rolur 1 2) := ⟨rfl, rfl, rfl⟩

/-- FetchReadsTheProgramList: the first index, the one before it and the one past the end. -/
theorem witness_fetch_range :
    (0 : Nat) < (loaded 5).mem.prog.length ∧ 0x100 = (loaded 5).mem.base + 0 ∧ 0xFF < (loaded 5).mem.base ∧
    (loaded 5).mem.base + (loaded 5).mem.prog.length ≤ 0x101 := by decide

/-- A state about to run the last NOP of `prog`, at the highest index of a `pc` of one bit. -/
def atHighest (base : Nat) (prog : List Word) : State :=
  { State.reset with
    cfg := { specConfig with pcWidth := 1 }, pc := 1, mem := { base := base, prog := prog },
    pcFits := by decide, topFits := .inl rfl }

/-- The same after it. -/
def pastHighest (base : Nat) (prog : List Word) : State :=
  { atHighest base prog with pastTop := true, topFits := .inr rfl }

/-- StepStopsOutsideTheProgramAndOnRefusedWords: `Done`, both sides outside, a refused word (95 P7), and the mark with
`Done` and with a refusal. -/
theorem witness_step_stops :
    State.reset.index = State.reset.mem.base + State.reset.mem.prog.length ∧
    ({ loaded 0 with pc := 0xFF, pcFits := by decide, topFits := .inl rfl } : State).index < (loaded 0).mem.base ∧
    (loaded 0).mem.base + (loaded 0).mem.prog.length
      < ({ loaded 0 with pc := 0x102, pcFits := by decide, topFits := .inl rfl } : State).index ∧
    (pastHighest 0 [0, 0]).index = (pastHighest 0 [0, 0]).mem.base + (pastHighest 0 [0, 0]).mem.prog.length ∧
    ((pastHighest 0 [0, 0, 0]).pastTop = true ∧ (pastHighest 0 [0, 0, 0]).index ≠ 0 + [0, 0, 0].length) ∧
    (loaded 0x0F0000).pastTop = false ∧
    (loaded 0x0F0000).mem.word? (loaded 0x0F0000).pc = some 0x0F0000 ∧
    decode (loaded 0x0F0000).cfg.reservedNonzero 0x0F0000 = .error .unassignedSubop := by
  refine ⟨by decide, by decide, by decide, by decide, by decide, rfl, rfl, rfl⟩

/-- RunsEndOrRefuseAfterTheHighestIndex: a program that ends at the highest index, and one that goes on past it. -/
theorem witness_highest_index :
    step (atHighest 0 [0, 0]) = .next (pastHighest 0 [0, 0]) ∧ 0 + [0, 0].length = 2 ^ (atHighest 0 [0, 0]).cfg.pcWidth ∧
    step (atHighest 1 [0, 0]) = .next (pastHighest 1 [0, 0]) ∧ 1 + [0, 0].length ≠ 2 ^ (atHighest 1 [0, 0]).cfg.pcWidth :=
  ⟨rfl, by decide, rfl, by decide⟩

/-- 70 R197 for programs that fill every index of a `pc` of one bit and of none: the runs end. -/
theorem test_run_of_all_indices_ends :
    (State.run { atHighest 0 [0, 0] with pc := 0, pcFits := by decide, topFits := .inl rfl } 3
      = .fault (.done (pastHighest 0 [0, 0]))) ∧
    ∃ final, State.run { State.reset with
        cfg := { specConfig with pcWidth := 0 }, mem := { base := 0, prog := [0] }, pcFits := by decide,
        topFits := .inl rfl } 2 = .fault (.done final) :=
  ⟨rfl, _, rfl⟩

/-- MccurCopiesWhenTheConditionHolds: each clause of the condition and of MCC_FALSE. -/
theorem witness_mcc_clauses :
    condHolds (.table (1 <<< 82)) 5 false false true false = true ∧
    condHolds (.table 0) 5 false false true false = false ∧ specConfig.mccFalse = .nothing ∧
    ({ specConfig with mccFalse := .zFromSource } : Config).mccFalse = .zFromSource := by decide

/-- SuburIsTheDifferenceWithItsBorrow, CmpurWritesOnlyTheFlagsOfTheDifference, CmpurFlagsAreThoseOfSubur: each
value of the two parameters. -/
theorem witness_subtraction_parameters :
    (specConfig.subCarry = .borrow ∧ specConfig.cmpOrder = .tMinusS) ∧
    ∀ o c, ({ specConfig with subCarry := c, cmpOrder := o } : Config).subCarry = c ∧
      ({ specConfig with subCarry := c, cmpOrder := o } : Config).cmpOrder = o :=
  ⟨⟨rfl, rfl⟩, fun _ _ => ⟨rfl, rfl⟩⟩

/-- ShlurMultipliesByThePowerOfTwo, ShrurDividesByThePowerOfTwo: amounts 0 and 23, and bits above bit 4. -/
theorem witness_amount_in_range :
    ((small 0 1 false false false false).readDR 1).toNat % 32 < 24 ∧
    ((small 23 1 false false false false).readDR 1).toNat % 32 < 24 ∧
    ((small 0xFFFFF7 1 false false false false).readDR 1).toNat % 32 < 24 := by decide

/-- ShiftsOutOfRangeTrapWithNothingWritten, RotatesOutOfRangeFollowRotRange: amounts 24 and 31. -/
theorem witness_amount_out_of_range :
    24 ≤ ((small 24 1 false false false false).readDR 1).toNat % 32 ∧
    24 ≤ ((small 0xFFFFFF 1 false false false false).readDR 1).toNat % 32 := by decide

/-- The three values of ROT_RANGE: RolurMovesEachBitUp and its kin at `mod24` with amount 31, and at `refuse` with
amount 23; RotatesOutOfRangeFollowRotRange at `trap` and `refuse`. -/
theorem witness_rot_range :
    specConfig.rotRange = .mod24 ∧ ({ specConfig with rotRange := .refuse } : Config).rotRange = .refuse ∧
    ({ specConfig with rotRange := .trap } : Config).rotRange = .trap := ⟨rfl, rfl, rfl⟩

/-- ShiftCarryIsTheLastBitOut: amount 0 and the ends of the ranges above it. -/
theorem witness_carry_amounts :
    (0 : BitVec 5) = 0 ∧ (1 : BitVec 5) ≠ 0 ∧ (23 : BitVec 5).toNat ≤ 23 ∧ (23 : BitVec 5) ≠ 0 ∧ (31 : BitVec 5) ≠ 0 := by
  decide

/-- OnlyOutOfRangeShiftsRaiseTheInterrupt, EveryInstructionCompletesOrTraps: at reset, and a state that traps. -/
theorem witness_interrupt :
    State.reset.cfg.rotRange = .mod24 ∧ (small 24 1 false false false false).cfg.rotRange = .mod24 ∧
    exec (.shlur 1 2) (small 24 1 false false false false)
      = .fault (.softwareInterrupt .arithRange (small 24 1 false false false false)) := ⟨rfl, rfl, rfl⟩

/-- TrapStateIsThatOfTheCompletedInstructions: a run that traps at its first instruction (95 section 3.4). -/
theorem witness_trap_run :
    (loaded 0x092100).run 1 = .fault (.softwareInterrupt .arithRange (loaded 0x092100)) := rfl

/-- InstructionsReadAndWriteOnlyTheirRegisters: two states that differ in a register the instruction does not
read, with the same amount from different values. -/
theorem witness_reads_agree :
    readsAgree (.shlur 1 2) (small 0x04 9 false false true false) (small 0x24 9 false false true false) ∧
    (small 0x04 9 false false true false).readDR 1 ≠ (small 0x24 9 false false true false).readDR 1 := by
  refine ⟨⟨rfl, rfl⟩, by decide⟩

/-- AmountIsTheLowFiveBits: 0x24 and 0x04 have the same low five bits. -/
theorem witness_amount_bits :
    (4 : BitVec 5).toNat = ((small 0x24 9 false false true false).readDR 1).toNat % 32 ∧
    (0x04 : Word).toNat % 32 = (4 : BitVec 5).toNat ∧ (1 : RegNum) ≠ 2 := by decide

/-- FlagsNAndVKeepTheirLaunchValues, ProgramTextIsConstant, FlagTableMarksWhoKeepsC,
ZFlagTellsWhetherTheResultIsZero: an instruction, a step and a run that go on. -/
theorem witness_goes_on :
    goesTo (exec (.movur 1 2) (loaded 0x012100)) 0x18 [0, 0, 1, 0] 0x101 = true ∧
    goesTo (step (loaded 0x012100)) 0x18 [0, 0, 1, 0] 0x101 = true ∧
    goesTo ((loaded 0x012100).run 1) 0x18 [0, 0, 1, 0] 0x101 = true ∧ 2 ∈ writtenRegs (.movur 1 2) (loaded 0x012100) :=
  ⟨by decide, by decide, by decide, by decide⟩

/-- StepKeepsTheRunInvariant, PcIsTheIndexOfTheInstructionThatRuns: a state with one
loaded word at index 0, which meets the invariant and fits and whose step
goes on. -/
theorem witness_invariant :
    (State.reset.withFetchWord 24 0x012100).Inv ∧
    (State.reset.withFetchWord 24 0x012100).mem.wf State.reset.cfg.pcWidth ∧ (pastHighest 0 []).pastTop = true ∧
    goesTo (step (State.reset.withFetchWord 24 0x012100)) 0 [1, 0, 0, 0] = true :=
  ⟨⟨by decide, by decide⟩, by decide, rfl, by decide⟩

/-- `Advanced`, in every result statement: a `pc` from which `pc + 1` has PC_WIDTH bits, and the highest one. -/
theorem witness_advanced :
    (loaded 0).pc + 1 < 2 ^ (loaded 0).cfg.pcWidth ∧ 0xFFFFFE + 1 < 2 ^ State.reset.cfg.pcWidth ∧
    0xFFFFFF + 1 = 2 ^ State.reset.cfg.pcWidth ∧
    (atHighest 0 [0, 0]).pc + 1 = 2 ^ (atHighest 0 [0, 0]).cfg.pcWidth := by decide

/-- EveryRunEndsWithinTheProgramLength: runs that go on, of a program that fits and of one that fills every index; and
a `pc` at the program's end. -/
theorem witness_on_program :
    ((loaded 0).Inv ∧ (loaded 0).mem.wf (loaded 0).cfg.pcWidth ∧ goesTo ((loaded 0).run 1) 0x800001 [0, 0, 1, 0] 0x101) ∧
    ((atHighest 0 [0, 0]).Inv ∧ (atHighest 0 [0, 0]).run 1 = .next (pastHighest 0 [0, 0])) ∧
    ({ loaded 0 with pc := 0x101, pcFits := by decide, topFits := .inl rfl } : State).Inv := by
  refine ⟨⟨⟨?_, ?_⟩, ?_, ?_⟩, ⟨⟨?_, ?_⟩, rfl⟩, ?_, ?_⟩ <;> decide

/-- SafeRunsEndInDone: the empty program's run is safe (95 P7, last row). -/
theorem witness_safe_run : SafeRun State.reset := by
  intro k
  cases k with
  | zero => exact .inl ⟨_, rfl⟩
  | succ k => exact .inr ⟨_, rfl⟩

/-- The same with one instruction to run. -/
theorem witness_safe_run_of_one : SafeRun (loaded 0x012100) := by
  intro k
  match k with
  | 0 => exact .inl ⟨_, rfl⟩
  | 1 => exact .inl ⟨_, rfl⟩
  | k + 2 => exact .inr ⟨_, rfl⟩

/-- RotatesUndoEachOther, NotAndXorTwiceRestore, ZeroAndOnesFromAnyRegister. -/
theorem witness_algebra :
    (1 : RegNum) ≠ 2 ∧ State.reset.cfg.rotRange = .mod24 ∧ Instr.subur 3 3 ∈ [Instr.xorur 3 3, .subur 3 3] := by decide

end Sys2Proof.Tests
end

section
/-! The step of 00_scope.md R10, where the word at `pc` decodes. -/

namespace Sys2Proof.Proofs.Step

open Sys2Proof Sys2Proof.Machine

/-- A step with a fetched word that decodes is the meaning of its instruction, with nothing around it (R10). -/
theorem step_eq_exec {st : State} {w : Word} {i : Instr} (hfetch : st.fetch = some w)
    (hdecode : decode st.cfg.reservedNonzero w = .ok i) : step st = exec i st := by
  simp only [step, hfetch, hdecode]

/-- Settles O11: with the mark clear the fetch is the word at `pc`, and the step runs what that word decodes to. -/
theorem stepRunsTheDecodedInstruction : Obligations.StepRunsTheDecodedInstruction := by
  intro st w i hmark hword hdecode
  have hfetch : st.fetch = some w := State.fetch_eq_some.mpr ⟨hmark, hword⟩
  exact step_eq_exec hfetch hdecode

end Sys2Proof.Proofs.Step
end

section
/-! The state's invariants of 10_state.md: who writes `n` and `v` (R34), what `z` tells (R31), and how `pc` counts and
stops (R26 to R28). -/

namespace Sys2Proof.Proofs.StateInvariants

open Sys2Proof Sys2Proof.Machine

/-! ### `n` and `v` -/

/-- An instruction that completes keeps `n` and `v`: its next state differs in registers, `z`, `c` and `pc` only. -/
theorem exec_next_keeps_n_v {i : Instr} {st st' : State} (h : exec i st = .next st') :
    st'.n = st.n ∧ st'.v = st.v := by
  obtain ⟨_, _, _, rfl⟩ := exec_next_shape h
  exact ⟨rfl, rfl⟩

theorem step_next_keeps_n_v {st st' : State} (h : step st = .next st') : st'.n = st.n ∧ st'.v = st.v := by
  obtain ⟨_, _, -, -, hexec⟩ := step_next h
  exact exec_next_keeps_n_v hexec

theorem run_next_keeps_n_v {k : Nat} {st st' : State} (h : st.run k = .next st') :
    st'.n = st.n ∧ st'.v = st.v := by
  refine State.run_next_induct (P := fun a b => b.n = a.n ∧ b.v = a.v) (fun _ => ⟨rfl, rfl⟩) ?_ h
  intro a mid b hstep ⟨hn, hv⟩
  obtain ⟨hn', hv'⟩ := step_next_keeps_n_v hstep
  exact ⟨hn.trans hn', hv.trans hv'⟩

/-- Settles O38, along runs by induction on the number of steps. -/
theorem flagsNAndVKeepTheirLaunchValues : Obligations.FlagsNAndVKeepTheirLaunchValues :=
  ⟨fun _ _ _ => exec_next_keeps_n_v, fun _ _ _ => run_next_keeps_n_v⟩

/-! ### `z` and the register written -/

theorem commitZ_z_eq_isZero_readDR (st : State) (t : RegNum) (w : Word) :
    (st.commitZ t w).z = isZero ((st.commitZ t w).readDR t) := by
  simp

theorem commitZC_z_eq_isZero_readDR (st : State) (t : RegNum) (w : Word) (carry : Bool) :
    (st.commitZC t w carry).z = isZero ((st.commitZC t w carry).readDR t) := by
  simp

/-- A shift that completes has committed a word to its target (R130, R132). -/
theorem shiftBy_next {op : ShiftOp} {f : Word → Nat → Word} {s t : RegNum} {st st' : State}
    (h : shiftBy op f s t st = .next st') : ∃ w, st' = commitShift op s t w st := by
  obtain ⟨-, e⟩ | ⟨-, e⟩ := shiftBy_cases op f s t st <;> rw [e] at h <;> cases h
  exact ⟨_, rfl⟩

/-- A rotate that completes has committed a word to its target (R131, R133). -/
theorem rotateBy_next {op : ShiftOp} {f : Word → Nat → Word} {s t : RegNum} {st st' : State}
    (h : rotateBy op f s t st = .next st') : ∃ w, st' = commitShift op s t w st := by
  obtain ⟨-, e⟩ | ⟨-, -, e⟩ | ⟨-, -, e⟩ := rotateBy_cases op f s t st <;> rw [e] at h <;> cases h
  exact ⟨_, rfl⟩

/-- An instruction that writes registers and completes does so by one of the two commits, to the one register it
writes; the instructions that write flags only, and MCCur without its copy, write none. -/
theorem exec_next_commits_written {i : Instr} {st st' : State} (h : exec i st = .next st') {r : RegNum}
    (hr : r ∈ writtenRegs i st) :
    (∃ w, st' = st.commitZ r w) ∨ ∃ w carry, st' = st.commitZC r w carry := by
  cases i with
  | nop | cmpur s t | tstur t => cases hr
  | movur s t | notur t | andur s t | orur s t | xorur s t =>
    obtain rfl := List.mem_singleton.mp hr
    cases h
    exact .inl ⟨_, rfl⟩
  | addur s t | subur s t =>
    obtain rfl := List.mem_singleton.mp hr
    cases h
    exact .inr ⟨_, _, rfl⟩
  | mccur cc s t =>
    by_cases hc : st.holds cc = true
    · simp only [writtenRegs, hc, if_true, List.mem_singleton] at hr
      simp only [exec, execMccur, hc, if_true] at h
      subst hr
      cases h
      exact .inl ⟨_, rfl⟩
    · simp [writtenRegs, hc] at hr
  | shlur s t | shrur s t =>
    obtain rfl := List.mem_singleton.mp hr
    obtain ⟨_, rfl⟩ := shiftBy_next h
    exact .inr ⟨_, _, rfl⟩
  | rolur s t | rorur s t =>
    obtain rfl := List.mem_singleton.mp hr
    obtain ⟨_, rfl⟩ := rotateBy_next h
    exact .inr ⟨_, _, rfl⟩

theorem exec_next_z_eq_isZero_written {i : Instr} {st st' : State} (h : exec i st = .next st') {r : RegNum}
    (hr : r ∈ writtenRegs i st) : st'.z = isZero (st'.readDR r) := by
  obtain ⟨w, rfl⟩ | ⟨w, carry, rfl⟩ := exec_next_commits_written h hr
  · exact commitZ_z_eq_isZero_readDR st r w
  · exact commitZC_z_eq_isZero_readDR st r w carry

/-- Settles O41: every write of a register is a commit, which takes `z` from the value written. -/
theorem zFlagTellsWhetherTheResultIsZero : Obligations.ZFlagTellsWhetherTheResultIsZero := by
  intro i st st' h r hr
  rw [exec_next_z_eq_isZero_written h hr]
  exact isZero_iff_toNat

/-! ### `pc` and the index -/

/-- A word read at an index stands at that place of the program, counted from `base` (20_memory.md R41). -/
theorem word?_eq_some_at {m : Memory} {idx : Nat} {w : Word} (h : m.word? idx = some w) :
    ∃ k, idx = m.base + k ∧ m.prog[k]? = some w := by
  obtain ⟨hbase, -⟩ := Memory.word?_eq_some h
  rw [Memory.word?, if_pos hbase] at h
  exact ⟨idx - m.base, by omega, h⟩

theorem pc_succ_of_pastTop {st : State} (h : st.pastTop = true) : st.pc + 1 = 2 ^ st.cfg.pcWidth := by
  simpa [h] using st.topFits

/-- A step that goes on has run what the word at `pc` decodes to (R26). -/
theorem step_next_executes_word {st st' : State} (h : step st = .next st') :
    ∃ w i, st.mem.word? st.pc = some w ∧ decode st.cfg.reservedNonzero w = .ok i ∧ exec i st = .next st' := by
  obtain ⟨w, i, hfetch, hdecode, hexec⟩ := step_next h
  obtain ⟨-, hword⟩ := State.fetch_eq_some.mp hfetch
  exact ⟨w, i, hword, hdecode, hexec⟩

/-- A step that goes on advances `pc` by R27 and R28. -/
theorem step_next_advanced {st st' : State} (h : step st = .next st') : Advanced st st' := by
  obtain ⟨-, -, hpc, hmark, -⟩ := step_next_frame h
  exact advanced_of_pc hpc hmark

/-- Settles O50: the bounds are the state's own, and the step's frame gives the advance and the count. -/
theorem pcIsTheIndexOfTheInstructionThatRuns : Obligations.PcIsTheIndexOfTheInstructionThatRuns := by
  refine fun st => ⟨st.pcFits, pc_succ_of_pastTop, fun st' h => ?_⟩
  obtain ⟨-, hcfg, -⟩ := step_next_frame h
  obtain ⟨w, i, hword, hdecode, hexec⟩ := step_next_executes_word h
  obtain ⟨k, hk, hprog⟩ := word?_eq_some_at hword
  exact ⟨⟨k, w, i, hk, hprog, hdecode, hexec⟩, step_next_advanced h, step_next_index h,
    congrArg Config.pcWidth hcfg, hcfg ▸ st'.pcFits⟩

/-- With the mark there is no word to fetch (R28, log 38). -/
theorem step_eq_endOfProgram_of_pastTop {st : State} (h : st.pastTop = true) : step st = st.endOfProgram := by
  simp only [step, State.fetch, h, if_true]

/-- Settles O51: the step from the highest index sets the mark, and the step from the mark is the end of the program
by R196. -/
theorem runsEndOrRefuseAfterTheHighestIndex : Obligations.RunsEndOrRefuseAfterTheHighestIndex := by
  intro st st' htop h
  obtain ⟨hmem, hcfg, -⟩ := step_next_frame h
  obtain ⟨hpc, hmark⟩ := (step_next_advanced h).2 htop
  have hindex : st'.index = 2 ^ st'.cfg.pcWidth := State.pastTop_iff.mp hmark
  have hnext : step st' =
      if 2 ^ st.cfg.pcWidth = st.mem.base + st.mem.prog.length then .fault (.done st')
      else .refused (.pcOutOfProgram st') := by
    rw [step_eq_endOfProgram_of_pastTop hmark, State.endOfProgram, hindex, hcfg, hmem, Memory.endIndex]
  exact ⟨step_next_executes_word h, hpc, hindex, fun hend => hnext.trans (if_pos hend.symm),
    fun hend => hnext.trans (if_neg (Ne.symm hend))⟩

end Sys2Proof.Proofs.StateInvariants
end

section
/-! Instruction memory, 20_memory.md: what a fetch reads of the loaded program (R41), and that no instruction and no run
writes it (R42). -/

namespace Sys2Proof.Proofs.InstructionMemory

open Sys2Proof Sys2Proof.Machine

/-! ### What a fetch reads -/

/-- Index `base + k` has the value of place `k` of the program list, and none where the list has none (R41). -/
theorem word?_base_add (m : Memory) (k : Nat) : m.word? (m.base + k) = m.prog[k]? := by
  rw [Memory.word?, if_pos (Nat.le_add_right _ _), Nat.add_sub_cancel_left]

/-- Settles O12: inside the program the memory reads the list place by place, and outside it has no value. -/
theorem fetchReadsTheProgramList : Obligations.FetchReadsTheProgramList := by
  refine fun m idx => ⟨fun k hk hidx => ?_, Memory.word?_eq_none_iff.mpr⟩
  rw [hidx, word?_base_add, List.getElem?_eq_getElem hk]

/-! ### Who writes the program -/

/-- An instruction that completes keeps the whole memory: its next state differs in registers, `z`, `c` and `pc` only
(R42). -/
theorem exec_next_keeps_mem {i : Instr} {st st' : State} (h : exec i st = .next st') : st'.mem = st.mem := by
  obtain ⟨_, _, _, rfl⟩ := exec_next_shape h
  rfl

/-- A run that goes on keeps the program, its base and the parameters, since each of its steps does. -/
theorem run_next_keeps_mem_cfg {k : Nat} {st st' : State} (h : st.run k = .next st') :
    st'.mem = st.mem ∧ st'.cfg = st.cfg := by
  refine State.run_next_induct (P := fun a b => b.mem = a.mem ∧ b.cfg = a.cfg) (fun _ => ⟨rfl, rfl⟩) ?_ h
  intro a mid b hstep ⟨hmem, hcfg⟩
  obtain ⟨hmem', hcfg', -⟩ := step_next_frame hstep
  exact ⟨hmem.trans hmem', hcfg.trans hcfg'⟩

/-- Settles O39: an instruction keeps the memory, so every word of it, and runs keep it by induction on the number of
steps. -/
theorem programTextIsConstant : Obligations.ProgramTextIsConstant :=
  ⟨fun _ _ _ h idx => congrArg (Memory.word? · idx) (exec_next_keeps_mem h), fun _ _ _ => run_next_keeps_mem_cfg⟩

end Sys2Proof.Proofs.InstructionMemory
end

section
/-! The encoder and the decoder of 30_encoding.md: the formula (R68), the checks a word passes (R70 to R73), the places
of its fields (R61 to R66), and that each undoes the other. -/

namespace Sys2Proof.Proofs.Encoding

open Sys2Proof

/-! ### An operation with its operands -/

@[simp] theorem op_instr (op : Op) (cc : CondSel) (s t : RegNum) : (op.instr cc s t).op = op := by
  cases op <;> rfl

/-- A format without `DRt` drops the target (R63 to R66). -/
@[simp] theorem target_instr (op : Op) (cc : CondSel) (s t : RegNum) :
    (op.instr cc s t).target = if op.format.hasTarget then t else 0 := by
  cases op <;> rfl

@[simp] theorem source_instr (op : Op) (cc : CondSel) (s t : RegNum) :
    (op.instr cc s t).source = if op.format.hasSource then s else 0 := by
  cases op <;> rfl

@[simp] theorem cond_instr (op : Op) (cc : CondSel) (s t : RegNum) :
    (op.instr cc s t).cond = if op.format.hasCond then cc else 0 := by
  cases op <;> rfl

/-- An instruction is its operation with its own operands. -/
theorem instr_of_operands (i : Instr) : i.op.instr i.cond i.source i.target = i := by
  cases i <;> rfl

/-! ### The encoder -/

/-- The fields of the encoding, for every instruction at once (R61 to R68). -/
theorem encodedFields (i : Instr) : Laws.EncodedFields.Statement i := by
  cases i with
  | nop => exact Laws.EncodedFields.nop
  | movur s t => exact Laws.EncodedFields.movur s t
  | mccur cc s t => exact Laws.EncodedFields.mccur cc s t
  | addur s t => exact Laws.EncodedFields.addur s t
  | subur s t => exact Laws.EncodedFields.subur s t
  | notur t => exact Laws.EncodedFields.notur t
  | andur s t => exact Laws.EncodedFields.andur s t
  | orur s t => exact Laws.EncodedFields.orur s t
  | xorur s t => exact Laws.EncodedFields.xorur s t
  | shlur s t => exact Laws.EncodedFields.shlur s t
  | rolur s t => exact Laws.EncodedFields.rolur s t
  | shrur s t => exact Laws.EncodedFields.shrur s t
  | rorur s t => exact Laws.EncodedFields.rorur s t
  | cmpur s t => exact Laws.EncodedFields.cmpur s t
  | tstur t => exact Laws.EncodedFields.tstur t

theorem encode_toNat (i : Instr) :
    (encode i).toNat
      = i.op.subop * 0x10000 + i.target.val * 0x1000 + i.source.val * 0x100 + i.cond.toNat * 0x10 := by
  rw [encode, BitVec.toNat_ofNat, Nat.mod_eq_of_lt (encode_sum_lt i)]

/-- Settles O1: the formula does not overflow, and a field the format lacks is 0. -/
theorem encodingFollowsTheFormula : Obligations.EncodingFollowsTheFormula := by
  intro cc s t
  simp only [encode_toNat, Instr.op, Op.subop, Instr.target, Instr.source, Instr.cond]
  simp

/-! ### The decoder -/

/-- The first check of R73 (R72). -/
theorem decode_of_opclass_ne_zero {rn : ReservedNonzero} {w : Word} (hclass : opclassField w ≠ 0) :
    decode rn w = .error .opclassOutOfScope :=
  if_pos hclass

/-- The second check of R73 (R71). -/
theorem decode_of_no_op {rn : ReservedNonzero} {w : Word} (hclass : opclassField w = 0)
    (hop : opOfSubop (subopField w) = none) : decode rn w = .error .unassignedSubop := by
  rw [decode, if_neg (not_not.mpr hclass), hop]

/-- The third check of R73 (R70), and the instruction where it passes. -/
theorem decode_of_op {rn : ReservedNonzero} {w : Word} {op : Op} (hclass : opclassField w = 0)
    (hop : opOfSubop (subopField w) = some op) :
    decode rn w = if reservedZero w op.format = false ∧ rn = .refuse then .error .reservedFieldNonzero
      else .ok (op.instr (condField w) (sourceField w) (targetField w)) := by
  rw [decode, if_neg (not_not.mpr hclass), hop]

/-- What it takes to pass the three checks: a word decodes to `i` exactly if its opclass is 0000, its `subop` is that
of `i`, its reserved field is zero where that is asked for, and `i` takes its operands from the word's fields. -/
theorem decode_eq_ok_iff {rn : ReservedNonzero} {w : Word} {i : Instr} :
    decode rn w = .ok i ↔
      opclassField w = 0 ∧ opOfSubop (subopField w) = some i.op ∧
      (rn = .refuse → reservedZero w i.op.format = true) ∧
      i.op.instr (condField w) (sourceField w) (targetField w) = i := by
  constructor
  · intro h
    by_cases hclass : opclassField w = 0
    · cases hop : opOfSubop (subopField w) with
      | none => cases (decode_of_no_op hclass hop).symm.trans h
      | some op =>
        rw [decode_of_op hclass hop] at h
        split at h
        · cases h
        · next hpass =>
          cases h
          simpa [hclass] using fun hrn => mt (⟨·, hrn⟩) hpass
    · cases (decode_of_opclass_ne_zero hclass).symm.trans h
  · rintro ⟨hclass, hop, hreserved, hi⟩
    have hpass : ¬ (reservedZero w i.op.format = false ∧ rn = .refuse) := by
      rintro ⟨hfalse, hrn⟩
      exact Bool.false_ne_true (hfalse.symm.trans (hreserved hrn))
    rw [decode_of_op hclass hop, if_neg hpass, hi]

/-- Settles O5: the fields of the encoding are the instruction's operation and operands, and its reserved field is
zero, so every check passes and the decoder puts the instruction together again. -/
theorem decodeOfEncodeIsTheInstruction : Obligations.DecodeOfEncodeIsTheInstruction := by
  intro rn i
  obtain ⟨hclass, hop, htarget, hsource, hcond, hreserved⟩ := encodedFields i
  refine decode_eq_ok_iff.mpr ⟨hclass, hop, fun _ => hreserved, ?_⟩
  rw [htarget, hsource, hcond, instr_of_operands]

/-- Settles O4: the decoder's checks give the common fields, and the operands are fields of the word. -/
theorem fieldsStandInTheirPlaces : Obligations.FieldsStandInTheirPlaces := by
  intro rn w i h
  obtain ⟨hclass, hop, -, hi⟩ := decode_eq_ok_iff.mp h
  have hsubop : (subopField w).toNat = i.op.subop := opOfSubop_eq_some.mp hop
  refine ⟨hclass, ?_, hsubop, fun ht => ?_, fun hs => ?_, fun hc => ?_⟩
  · exact hsubop.trans_le (Nat.le_of_lt_succ i.op.subop_lt)
  · rw [← hi, target_instr, if_pos ht]; rfl
  · rw [← hi, source_instr, if_pos hs]; rfl
  · rw [← hi, cond_instr, if_pos hc]; rfl

/-! ### Reserved bits -/

/-- How many bits at the word's low end a format reserves (R63 to R66). -/
def reservedBits : Format → Nat
  | .z => 16
  | .rr => 8
  | .rrc => 4
  | .r => 12

theorem reservedZero_iff {w : Word} {f : Format} :
    reservedZero w f = true ↔ w.toNat % 2 ^ reservedBits f = 0 := by
  cases f <;> simp [reservedZero, reservedBits, ← BitVec.toNat_inj]

theorem clear_reservedBits_of_zero {w : Word} {f : Format} (h : reservedZero w f = true) :
    w >>> reservedBits f <<< reservedBits f = w := by
  have hdvd : 2 ^ reservedBits f ∣ w.toNat := Nat.dvd_of_mod_eq_zero (reservedZero_iff.mp h)
  apply BitVec.eq_of_toNat_eq
  rw [BitVec.toNat_shiftLeft, BitVec.toNat_ushiftRight, Nat.shiftRight_eq_div_pow, Nat.shiftLeft_eq,
    Nat.div_mul_cancel hdvd, Nat.mod_eq_of_lt w.isLt]

/-- Encoding what a word decodes to clears the word's reserved bits and changes nothing else. -/
theorem encode_of_decode {rn : ReservedNonzero} {w : Word} {i : Instr} (h : decode rn w = .ok i) :
    encode i = w >>> reservedBits i.op.format <<< reservedBits i.op.format := by
  obtain ⟨hclass, hop, -, hi⟩ := decode_eq_ok_iff.mp h
  have hclass : w.toNat / 0x100000 = 0 := by rw [← opclassField_toNat, hclass]; rfl
  have hsubop : w.toNat / 0x10000 % 16 = i.op.subop := by rw [← subopField_toNat, opOfSubop_eq_some.mp hop]
  have hw := w.isLt
  apply BitVec.eq_of_toNat_eq
  rw [encode_toNat, ← hi]
  simp only [op_instr, target_instr, source_instr, cond_instr, ← hsubop, BitVec.toNat_shiftLeft,
    BitVec.toNat_ushiftRight, Nat.shiftRight_eq_div_pow, Nat.shiftLeft_eq]
  cases i.op.format <;>
    simp [Format.hasTarget, Format.hasSource, Format.hasCond, reservedBits, targetField_val, sourceField_val,
      condField_toNat] <;> omega

/-- Settles O6: the encoding is the word with its reserved bits cleared, and under `refuse` they were zero. -/
theorem encodeOfDecodeIsTheWord : Obligations.EncodeOfDecodeIsTheWord := by
  refine fun w i => ⟨fun h => ?_, fun h => ?_⟩
  · obtain ⟨-, -, hreserved, -⟩ := decode_eq_ok_iff.mp h
    rw [encode_of_decode h, clear_reservedBits_of_zero (hreserved rfl)]
  · rw [encode_of_decode h, BitVec.shiftLeft_ushiftRight]
    cases i.op.format <;> rfl

end Sys2Proof.Proofs.Encoding
end

section
/-! The opcode map of 30_encoding.md R67 as words and masks, and the decoding procedure of R73 with its count. -/

namespace Sys2Proof.Proofs.OpcodeMap

open Sys2Proof Sys2Proof.Proofs.Encoding

/-! ### The opcode map -/

/-- The words that decode to an operation under `refuse`, as numbers: bits 23:16 are its `subop`, and the reserved bits
are 0. -/
theorem decodes_to_op_iff {w : Word} {op : Op} :
    (∃ i, decode .refuse w = .ok i ∧ i.op = op) ↔
      w.toNat / 0x10000 = op.subop ∧ w.toNat % 2 ^ reservedBits op.format = 0 := by
  have hfields : opclassField w = 0 ∧ opOfSubop (subopField w) = some op ↔ w.toNat / 0x10000 = op.subop := by
    have := op.subop_lt
    rw [opOfSubop_eq_some, ← BitVec.toNat_inj, opclassField_toNat, subopField_toNat]
    change w.toNat / 0x100000 = 0 ∧ w.toNat / 0x10000 % 16 = op.subop ↔ w.toNat / 0x10000 = op.subop
    omega
  rw [← hfields, ← reservedZero_iff]
  constructor
  · rintro ⟨i, h, rfl⟩
    obtain ⟨hclass, hop, hreserved, -⟩ := decode_eq_ok_iff.mp h
    exact ⟨⟨hclass, hop⟩, hreserved rfl⟩
  · rintro ⟨⟨hclass, hop⟩, hreserved⟩
    refine ⟨op.instr (condField w) (sourceField w) (targetField w), decode_eq_ok_iff.mpr ?_, op_instr ..⟩
    rw [op_instr]
    exact ⟨hclass, hop, fun _ => hreserved, rfl⟩

/-- A row's mask keeps bits 23:16 and the reserved bits. -/
theorem maskWord_eq (op : Op) :
    op.maskWord = BitVec.allOnes 24 <<< 16 ||| BitVec.ofNat 24 (2 ^ reservedBits op.format - 1) := by
  cases op <;> rfl

theorem matchWord_toNat (op : Op) : op.matchWord.toNat = op.subop * 0x10000 := by
  cases op <;> rfl

theorem reservedBits_le (f : Format) : reservedBits f ≤ 16 := by cases f <;> decide

theorem and_maskWord_toNat (w : Word) (op : Op) :
    (w &&& op.maskWord).toNat = w.toNat / 0x10000 * 0x10000 + w.toNat % 2 ^ reservedBits op.format := by
  have hk : 2 ^ reservedBits op.format ≤ 2 ^ 16 := Nat.pow_le_pow_right (by decide) (reservedBits_le _)
  have hlow : w.toNat % 2 ^ reservedBits op.format < 2 ^ 16 :=
    (Nat.mod_lt _ (Nat.two_pow_pos _)).trans_le hk
  have hw := w.isLt
  have hones : (2 ^ reservedBits op.format - 1) % 2 ^ 24 = 2 ^ reservedBits op.format - 1 := by omega
  have hhigh : w.toNat >>> 16 <<< 16 % 2 ^ 24 = w.toNat >>> 16 <<< 16 := by
    simp only [Nat.shiftRight_eq_div_pow, Nat.shiftLeft_eq]; omega
  rw [maskWord_eq, BitVec.and_or_distrib_left, ← BitVec.shiftLeft_ushiftRight, BitVec.toNat_or, BitVec.toNat_and,
    BitVec.toNat_ofNat, hones, Nat.and_two_pow_sub_one_eq_mod, BitVec.toNat_shiftLeft, BitVec.toNat_ushiftRight,
    hhigh, ← Nat.shiftLeft_add_eq_or_of_lt hlow, Nat.shiftRight_eq_div_pow, Nat.shiftLeft_eq]

/-- R67's reading of a row. -/
theorem and_maskWord_eq_matchWord_iff {w : Word} {op : Op} :
    w &&& op.maskWord = op.matchWord ↔
      w.toNat / 0x10000 = op.subop ∧ w.toNat % 2 ^ reservedBits op.format = 0 := by
  have hlow : w.toNat % 2 ^ reservedBits op.format < 0x10000 :=
    (Nat.mod_lt _ (Nat.two_pow_pos _)).trans_le (Nat.pow_le_pow_right (by decide) (reservedBits_le _))
  rw [← BitVec.toNat_inj, and_maskWord_toNat, matchWord_toNat]
  omega

/-- An operation's row of R67. -/
def opcodeRow (op : Op) : Op × Nat × String × String × Format × Word × Word :=
  (op, op.subop, op.uopName, op.isaName, op.format, op.matchWord, op.maskWord)

/-- Settles O2: the fifteen rows are those of the operations, and a row's match under its mask says what the decoder
checks. -/
theorem opcodeMapSelectsByMaskAndMatch : Obligations.OpcodeMapSelectsByMaskAndMatch := by
  intro row hrow
  change row ∈ Op.all.map opcodeRow at hrow
  obtain ⟨op, -, rfl⟩ := List.mem_map.mp hrow
  exact ⟨rfl, rfl, rfl, rfl, fun _ => decodes_to_op_iff.trans and_maskWord_eq_matchWord_iff.symm⟩

/-! ### The decoding procedure and its count -/

/-- The operations stand in `Op.all` at their `subop`. -/
theorem opOfSubop_eq_getElem? (b : BitVec 4) : opOfSubop b = Op.all[b.toNat]? := by
  revert b
  decide

theorem mem_opAll (op : Op) : op ∈ Op.all := by cases op <;> decide

theorem opOfSubop_subop (op : Op) : opOfSubop (BitVec.ofNat 4 op.subop) = some op := by
  cases op <;> rfl

theorem subop_injective {op op' : Op} (h : op.subop = op'.subop) : op = op' := by
  have e : opOfSubop (BitVec.ofNat 4 op'.subop) = some op := h ▸ opOfSubop_subop op
  exact Option.some.inj (e.symm.trans (opOfSubop_subop op'))

/-- The `n`-th word of an operation: the operand bits count up above the reserved bits. -/
def nthWord (op : Op) (n : Nat) : Word :=
  BitVec.ofNat 24 (op.subop * 0x10000 + n * 2 ^ reservedBits op.format)

/-- How many words an operation has: one for each value of its operand bits. -/
def wordCount (op : Op) : Nat := 2 ^ (16 - reservedBits op.format)

/-- Each operation with the numbers of its words. -/
def acceptedIndices : List (Σ _ : Op, Nat) := Op.all.sigma fun op => List.range (wordCount op)

theorem acceptedIndices_length : acceptedIndices.length = 6945 := by
  rw [acceptedIndices, List.length_sigma]
  simp only [List.length_range]
  decide

theorem acceptedIndices_nodup : acceptedIndices.Nodup :=
  List.Nodup.sigma (by decide) fun _ => List.nodup_range

theorem wordCount_mul (op : Op) : wordCount op * 2 ^ reservedBits op.format = 0x10000 := by
  cases op <;> rfl

theorem operandBits_lt {op : Op} {n : Nat} (hn : n < wordCount op) : n * 2 ^ reservedBits op.format < 0x10000 :=
  wordCount_mul op ▸ Nat.mul_lt_mul_of_pos_right hn (Nat.two_pow_pos _)

theorem nthWord_toNat {op : Op} {n : Nat} (hn : n < wordCount op) :
    (nthWord op n).toNat = op.subop * 0x10000 + n * 2 ^ reservedBits op.format := by
  have := op.subop_lt
  have := operandBits_lt hn
  rw [nthWord, BitVec.toNat_ofNat, Nat.mod_eq_of_lt (by omega)]

theorem mem_acceptedIndices {op : Op} {n : Nat} : ⟨op, n⟩ ∈ acceptedIndices ↔ n < wordCount op := by
  simp [acceptedIndices, mem_opAll]

theorem nthWord_inj {op op' : Op} {n n' : Nat} (hn : n < wordCount op) (hn' : n' < wordCount op')
    (h : nthWord op n = nthWord op' n') : op = op' ∧ n = n' := by
  have e := congrArg BitVec.toNat h
  rw [nthWord_toNat hn, nthWord_toNat hn'] at e
  have := operandBits_lt hn
  have := operandBits_lt hn'
  obtain rfl : op = op' := subop_injective (by omega)
  exact ⟨rfl, Nat.eq_of_mul_eq_mul_right (Nat.two_pow_pos _) (Nat.add_left_cancel e)⟩

/-- A word is one of an operation's words exactly if it decodes to the operation. -/
theorem exists_nthWord_iff {w : Word} {op : Op} :
    (∃ n < wordCount op, nthWord op n = w) ↔ ∃ i, decode .refuse w = .ok i ∧ i.op = op := by
  have hblock : 2 ^ reservedBits op.format ∣ 0x10000 := ⟨wordCount op, by rw [mul_comm, wordCount_mul]⟩
  rw [decodes_to_op_iff]
  constructor
  · rintro ⟨n, hn, rfl⟩
    have := operandBits_lt hn
    rw [nthWord_toNat hn]
    exact ⟨by omega, Nat.mod_eq_zero_of_dvd (dvd_add (dvd_mul_of_dvd_right hblock _) (dvd_mul_left _ _))⟩
  · rintro ⟨hsubop, hreserved⟩
    have hdvd : 2 ^ reservedBits op.format ∣ w.toNat % 0x10000 :=
      (Nat.dvd_mod_iff hblock).mpr (Nat.dvd_of_mod_eq_zero hreserved)
    obtain ⟨n, hoperands⟩ := exists_eq_mul_left_of_dvd hdvd
    have hn : n < wordCount op := by
      refine Nat.lt_of_mul_lt_mul_right (a := 2 ^ reservedBits op.format) ?_
      rw [← hoperands, wordCount_mul]
      exact Nat.mod_lt _ (by decide)
    refine ⟨n, hn, BitVec.eq_of_toNat_eq ?_⟩
    rw [nthWord_toNat hn, ← hoperands, ← hsubop, Nat.div_add_mod']

/-- The accepted words, each once. -/
def acceptedWords : List Word := acceptedIndices.map fun p => nthWord p.1 p.2

theorem acceptedWords_nodup : acceptedWords.Nodup := by
  refine List.Nodup.map_on ?_ acceptedIndices_nodup
  rintro ⟨op, n⟩ hn ⟨op', n'⟩ hn' h
  obtain ⟨rfl, rfl⟩ := nthWord_inj (mem_acceptedIndices.mp hn) (mem_acceptedIndices.mp hn') h
  rfl

theorem mem_acceptedWords_iff {w : Word} : w ∈ acceptedWords ↔ ∃ i, decode .refuse w = .ok i := by
  calc w ∈ acceptedWords
    _ ↔ ∃ op, ∃ n < wordCount op, nthWord op n = w := by
      simp [acceptedWords, Sigma.exists, mem_acceptedIndices]
    _ ↔ ∃ op i, decode .refuse w = .ok i ∧ i.op = op := exists_congr fun _ => exists_nthWord_iff
    _ ↔ ∃ i, decode .refuse w = .ok i := by simp

/-- Settles O3: the checks in their order, and the accepted words counted operation by operation. -/
theorem decodingProcedureAndItsCount : Obligations.DecodingProcedureAndItsCount := by
  refine ⟨fun w => ?_, acceptedWords, acceptedWords_nodup, ?_, fun _ => mem_acceptedWords_iff⟩
  · by_cases hclass : opclassField w = 0
    · have hclass' : ¬ w.extractLsb' 20 4 ≠ 0 := not_not.mpr hclass
      cases hop : opOfSubop (subopField w) with
      | none =>
        have h15 : w.extractLsb' 16 4 = 15 := BitVec.eq_of_toNat_eq (opOfSubop_eq_none.mp hop)
        rw [decode_of_no_op hclass hop, if_neg hclass', if_pos h15]
      | some op =>
        have h15 : w.extractLsb' 16 4 ≠ 15 := fun h =>
          Option.some_ne_none op (hop.symm.trans (opOfSubop_eq_none.mpr (congrArg BitVec.toNat h)))
        have hall : Op.all[(w.extractLsb' 16 4).toNat]? = some op := (opOfSubop_eq_getElem? _).symm.trans hop
        rw [decode_of_op hclass hop, if_neg hclass', if_neg h15, hall]
        refine if_congr ?_ rfl rfl
        rw [and_iff_left rfl, ← Bool.not_eq_true, reservedZero_iff]
        cases op.format <;> exact Iff.rfl
    · exact (decode_of_opclass_ne_zero hclass).trans (if_pos hclass).symm
  · rw [acceptedWords, List.length_map, acceptedIndices_length]

end Sys2Proof.Proofs.OpcodeMap
end

section
/-! The assembler's order of the operands against the word's (30_encoding.md R76). -/

namespace Sys2Proof.Proofs.Assembler

open Sys2Proof Sys2Proof.Proofs.Encoding

theorem assemble_of_wellFormed {l : AsmLine} (h : l.wellFormed = true) :
    assemble l = some (l.op.instr (BitVec.ofNat 4 (l.cc.getD 0)) (Fin.ofNat 16 (l.ds.getD 0))
      (Fin.ofNat 16 (l.dt.getD 0))) :=
  if_pos h

/-- A line read off an instruction has the operands its operation takes, each below 16. -/
theorem wellFormed_disassemble (i : Instr) : (disassemble i).wellFormed = true := by
  have hfit : (disassemble i).operandsFit = true := by
    simp [disassemble, AsmLine.operandsFit, apply_ite Option.isSome]
  have hcond : (disassemble i).condInRange = true := by
    simp [disassemble, AsmLine.condInRange, apply_ite (Option.all _), i.cond.isLt]
  have hsource : (disassemble i).sourceInRange = true := by
    simp [disassemble, AsmLine.sourceInRange, apply_ite (Option.all _)]
  have htarget : (disassemble i).targetInRange = true := by
    simp [disassemble, AsmLine.targetInRange, apply_ite (Option.all _)]
  rw [AsmLine.wellFormed, hfit, hcond, hsource, htarget]
  rfl

theorem assemble_disassemble (i : Instr) : assemble (disassemble i) = some i := by
  rw [assemble_of_wellFormed (wellFormed_disassemble i)]
  cases i <;> simp [disassemble, Instr.op, Op.format, Op.instr, Format.hasCond, Format.hasSource, Format.hasTarget,
    Instr.cond, Instr.source, Instr.target]

/-- A format-RR line is its source and target, in this order (R76). -/
theorem assemble_rr {op : Op} (hf : op.format = .rr) (s t : RegNum) :
    assemble ⟨op, none, some s.val, some t.val⟩ = some (op.instr 0 s t) := by
  have hline : disassemble (op.instr 0 s t) = ⟨op, none, some s.val, some t.val⟩ := by
    simp [disassemble, hf, Format.hasCond, Format.hasSource, Format.hasTarget]
  rw [← hline, assemble_disassemble]

/-- A format-RRC line is its condition, source and target, in this order (R76). -/
theorem assemble_mcc (cc : CondSel) (s t : RegNum) :
    assemble ⟨.mcc, some cc.toNat, some s.val, some t.val⟩ = some (.mccur cc s t) :=
  assemble_disassemble (.mccur cc s t)

theorem encode_target_bits (i : Instr) : (encode i).extractLsb' 12 4 = BitVec.ofNat 4 i.target.val := by
  obtain ⟨-, -, htarget, -⟩ := encodedFields i
  rw [← htarget]
  exact ((BitVec.ofNat_toNat 4 _).trans (BitVec.setWidth_eq _)).symm

theorem encode_source_bits (i : Instr) : (encode i).extractLsb' 8 4 = BitVec.ofNat 4 i.source.val := by
  obtain ⟨-, -, -, hsource, -⟩ := encodedFields i
  rw [← hsource]
  exact ((BitVec.ofNat_toNat 4 _).trans (BitVec.setWidth_eq _)).symm

theorem text_of_source_target (op : Op) (s t : Nat) :
    (AsmLine.mk op none (some s) (some t)).text = op.isaName ++ " d" ++ Nat.repr s ++ ", d" ++ Nat.repr t := by
  have hsource : " d" = " " ++ "d" := rfl
  have htarget : ", d" = ", " ++ "d" := rfl
  simp only [AsmLine.text, regText, hsource, htarget, String.append_assoc, String.empty_append]

theorem text_of_cond (cc s t : Nat) :
    (AsmLine.mk .mcc (some cc) (some s) (some t)).text
      = "cond_copy.[" ++ Nat.repr cc ++ "] d" ++ Nat.repr s ++ ", d" ++ Nat.repr t := by
  have hsuffix : "cond_copy.[" = "cond_copy" ++ ".[" := rfl
  have hsource : "] d" = "]" ++ (" " ++ "d") := rfl
  have htarget : ", d" = ", " ++ "d" := rfl
  simp only [AsmLine.text, Op.isaName, regText, hsuffix, hsource, htarget, String.append_assoc]

/-- Settles O8: a line is read source first and target last, and the encoding puts `DRt` in bits 15:12, `DRs` in bits
11:8. -/
theorem assemblerOrderIsSourceThenTarget : Obligations.AssemblerOrderIsSourceThenTarget := by
  refine ⟨fun op s t hf => ⟨text_of_source_target .., op.instr 0 s t, assemble_rr hf s t, op_instr .., ?_⟩,
    fun cc s t => ⟨text_of_cond .., assemble_mcc cc s t⟩, by decide⟩
  have hsource : (op.instr 0 s t).source = s := by rw [source_instr, hf]; rfl
  have htarget : (op.instr 0 s t).target = t := by rw [target_instr, hf]; rfl
  refine ⟨hsource, htarget, ?_, ?_⟩
  · rw [encode_target_bits, htarget]
  · rw [encode_source_bits, hsource]

end Sys2Proof.Proofs.Assembler
end

section
/-! The frame and the advance of every instruction that completes (10_state.md R21, R25, R27): which registers it keeps,
and where `pc` goes. -/

namespace Sys2Proof.Proofs.Frame

open Sys2Proof Sys2Proof.Machine Sys2Proof.Proofs.StateInvariants

theorem notCopied_readDR (s r : RegNum) (st : State) : (notCopied s st).readDR r = st.readDR r := by
  rw [notCopied_eq, State.advance_readDR, State.setZ_readDR]

theorem commitZ_readDR_ne {r t : RegNum} (st : State) (w : Word) (h : r ≠ t) :
    (st.commitZ t w).readDR r = st.readDR r := by
  rw [State.commitZ_readDR, if_neg h]

theorem commitZC_readDR_ne {r t : RegNum} (st : State) (w : Word) (carry : Bool) (h : r ≠ t) :
    (st.commitZC t w carry).readDR r = st.readDR r := by
  rw [State.commitZC_readDR, if_neg h]

/-- A register outside the "W" column of R25 is kept by an instruction that completes. -/
theorem exec_next_keeps_unwritten {i : Instr} {st st' : State} (h : exec i st = .next st') {r : RegNum}
    (hr : r ∉ writtenRegs i st) : st'.readDR r = st.readDR r := by
  cases i with
  | nop | cmpur s t | tstur t => cases h; rfl
  | movur s t | notur t | andur s t | orur s t | xorur s t =>
    cases h
    exact commitZ_readDR_ne st _ (List.ne_of_not_mem_cons hr)
  | addur s t | subur s t =>
    cases h
    exact commitZC_readDR_ne st _ _ (List.ne_of_not_mem_cons hr)
  | mccur cc s t =>
    cases h
    cases hc : st.holds cc with
    | true =>
      have hne : r ≠ t := by simpa [writtenRegs, hc] using hr
      exact commitZ_readDR_ne st _ hne
    | false => exact notCopied_readDR s r st
  | shlur s t | shrur s t =>
    obtain ⟨_, rfl⟩ := shiftBy_next h
    exact commitZC_readDR_ne st _ _ (List.ne_of_not_mem_cons hr)
  | rolur s t | rorur s t =>
    obtain ⟨_, rfl⟩ := rotateBy_next h
    exact commitZC_readDR_ne st _ _ (List.ne_of_not_mem_cons hr)

/-- The frame of any instruction that completes: all is kept but `pc`, `z`, `c` and the registers of R25's "W"
column. -/
theorem exec_next_keepsBut_written {i : Instr} {st st' : State} (h : exec i st = .next st') :
    KeepsBut (writtenRegs i st) st st' := by
  refine ⟨fun r hr => exec_next_keeps_unwritten h hr, ?_⟩
  obtain ⟨_, _, _, rfl⟩ := exec_next_shape h
  exact ⟨rfl, rfl, rfl, rfl, fun _ => rfl⟩

theorem keepsBut_mono {regs regs' : List RegNum} {st st' : State} (hsub : regs ⊆ regs') (h : KeepsBut regs st st') :
    KeepsBut regs' st st' := by
  obtain ⟨hregs, hrest⟩ := h
  exact ⟨fun r hr => hregs r fun hmem => hr (hsub hmem), hrest⟩

/-- An instruction that completes advances `pc` by R27 and R28. -/
theorem exec_next_advanced {i : Instr} {st st' : State} (h : exec i st = .next st') : Advanced st st' := by
  obtain ⟨_, _, _, rfl⟩ := exec_next_shape h
  exact advanced_of_pc rfl rfl

end Sys2Proof.Proofs.Frame
end

section
/-! NOP, MOVur and MCCur (40_nop_copy.md). -/

namespace Sys2Proof.Proofs.Copy

open Sys2Proof Sys2Proof.Machine Sys2Proof.Proofs.Frame

/-- Settles O15: the next state is the advance of `pc` alone. -/
theorem nopChangesOnlyPc : Obligations.NopChangesOnlyPc := by
  intro st
  have hexec : exec .nop st = .next st.advance := rfl
  exact ⟨_, hexec, exec_next_keepsBut_written hexec, rfl, rfl, exec_next_advanced hexec⟩

/-- A commit that sets `z` leaves in its target the word committed, and `z` tells whether that word is zero (R31). -/
theorem commitZ_target_and_z (st : State) (t : RegNum) (w : Word) :
    (st.commitZ t w).readDR t = w ∧ ((st.commitZ t w).z = true ↔ w.toNat = 0) :=
  ⟨(State.commitZ_readDR ..).trans (if_pos rfl), isZero_iff_toNat⟩

/-- Settles O16: MOVur commits the source's old value. -/
theorem movurCopiesAndSetsZ : Obligations.MovurCopiesAndSetsZ := by
  intro s t st
  have hexec : exec (.movur s t) st = .next (st.commitZ t (st.readDR s)) := rfl
  obtain ⟨hcopy, hz⟩ := commitZ_target_and_z st t (st.readDR s)
  exact ⟨_, hexec, hcopy, hz, rfl, exec_next_keepsBut_written hexec, exec_next_advanced hexec⟩

theorem exec_mccur_of_holds {cc : CondSel} {st : State} (s t : RegNum) (hc : st.holds cc = true) :
    exec (.mccur cc s t) st = .next (st.commitZ t (st.readDR s)) := by
  rw [exec, execMccur, if_pos hc]

theorem exec_mccur_of_not_holds {cc : CondSel} {st : State} (s t : RegNum) (hc : st.holds cc = false) :
    exec (.mccur cc s t) st = .next (notCopied s st) := by
  rw [exec, execMccur, if_neg (Bool.eq_false_iff.mp hc)]

/-- MCCur writes at most its target, whether or not it copies. -/
theorem writtenRegs_mccur_subset (cc : CondSel) (s t : RegNum) (st : State) :
    writtenRegs (.mccur cc s t) st ⊆ [t] := by
  cases hc : st.holds cc <;> simp [writtenRegs, hc]

theorem notCopied_c (s : RegNum) (st : State) : (notCopied s st).c = st.c := by
  rw [notCopied_eq, State.advance_c, State.setZ_c]

theorem notCopied_z (s : RegNum) (st : State) :
    (notCopied s st).z = if st.cfg.mccFalse = .nothing then st.z else isZero (st.readDR s) := by
  rw [notCopied_eq, State.advance_z, State.setZ_z]

/-- Under MCC_FALSE = z_from_source, `z` tells of the source although it was not copied (log 13). -/
theorem notCopied_z_iff {st : State} (s : RegNum) (h : st.cfg.mccFalse = .zFromSource) :
    (notCopied s st).z = true ↔ (st.readDR s).toNat = 0 := by
  rw [notCopied_z, h, if_neg nofun, isZero_iff_toNat]

/-- Settles O17, by whether the condition holds on the flags before: MCCur commits the source's old value or takes its
other branch, and the frame of either is that of the target alone. -/
theorem mccurCopiesWhenTheConditionHolds : Obligations.MccurCopiesWhenTheConditionHolds := by
  intro cc s t st
  have frame {st' : State} (h : exec (.mccur cc s t) st = .next st') : KeepsBut [t] st st' :=
    keepsBut_mono (writtenRegs_mccur_subset cc s t st) (exec_next_keepsBut_written h)
  cases hc : st.holds cc with
  | true =>
    have hexec := exec_mccur_of_holds s t hc
    exact ⟨_, hexec, rfl, frame hexec, exec_next_advanced hexec,
      fun _ => commitZ_target_and_z st t (st.readDR s), fun hf => absurd (hf.symm.trans hc) Bool.false_ne_true⟩
  | false =>
    have hexec := exec_mccur_of_not_holds s t hc
    exact ⟨_, hexec, notCopied_c s st, frame hexec, exec_next_advanced hexec,
      fun ht => absurd (hc.symm.trans ht) Bool.false_ne_true,
      fun _ => ⟨notCopied_readDR s t st, fun h => (notCopied_z s st).trans (if_pos h), notCopied_z_iff s⟩⟩

end Sys2Proof.Proofs.Copy
end

section
/-! ADDur and SUBur (41_add_sub.md): the exact sum with its carry, the difference with its borrow. -/

namespace Sys2Proof.Proofs.AddSub

open Sys2Proof Sys2Proof.Machine Sys2Proof.Proofs.Frame

/-- A commit that sets `z` and `c` leaves in its target the word committed, also where the target is the source. -/
theorem commitZC_readDR_target (st : State) (t : RegNum) (w : Word) (carry : Bool) :
    (st.commitZC t w carry).readDR t = w :=
  (State.commitZC_readDR ..).trans (if_pos rfl)

/-- The 24 bits ADDur keeps and the carry above them are the whole 25-bit sum (R110). -/
theorem sum25_low_add_addCarry (a b : Word) :
    ((sum25 a b).extractLsb' 0 24).toNat + (addCarry a b).toNat * 2 ^ 24 = a.toNat + b.toNat := by
  have ha := a.isLt
  have hb := b.isLt
  rw [sum25_low_toNat]
  cases hc : addCarry a b with
  | true =>
    have hover := addCarry_iff.mp hc
    simp only [Bool.toNat_true]
    omega
  | false =>
    have hunder : ¬ 2 ^ 24 ≤ a.toNat + b.toNat := fun h => Bool.eq_false_iff.mp hc (addCarry_iff.mpr h)
    simp only [Bool.toNat_false]
    omega

/-- Settles O18: ADDur commits the low 24 bits of the 25-bit sum of the operands before, and bit 24 as `c`. -/
theorem addurIsTheExactSumWithItsCarry : Obligations.AddurIsTheExactSumWithItsCarry := by
  intro s t st
  have hexec : exec (.addur s t) st = .next (st.commitZC t ((sum25 (st.readDR t) (st.readDR s)).extractLsb' 0 24)
      (addCarry (st.readDR t) (st.readDR s))) := rfl
  refine ⟨_, hexec, ?_, ?_, exec_next_keepsBut_written hexec, exec_next_advanced hexec⟩
  · rw [commitZC_readDR_target, State.commitZC_c, sum25_low_add_addCarry]
  · rw [commitZC_readDR_target, State.commitZC_z, isZero_iff_toNat]

/-- A difference of words is the integer difference modulo `2^24` (R111). -/
theorem sub_toNat_eq_int_emod (a b : Word) : ((a - b).toNat : Int) = (a.toNat - b.toNat : Int) % 2 ^ 24 := by
  have hb := b.isLt
  rw [BitVec.toNat_sub]
  omega

/-- Settles O19: SUBur commits the difference of the operands before, and `c` by the rule SUB_CARRY names. -/
theorem suburIsTheDifferenceWithItsBorrow : Obligations.SuburIsTheDifferenceWithItsBorrow := by
  intro s t st
  have hexec : exec (.subur s t) st = .next (st.commitZC t (st.readDR t - st.readDR s)
      (subCarry st.cfg.subCarry (st.readDR t) (st.readDR s))) := rfl
  refine ⟨_, hexec, ?_, isZero_sub, fun hborrow => ?_, fun hnot => ?_,
    exec_next_keepsBut_written hexec, exec_next_advanced hexec⟩
  · rw [commitZC_readDR_target, sub_toNat_eq_int_emod]
  · rw [State.commitZC_c, hborrow, subCarry_borrow, decide_eq_true_iff]
  · rw [State.commitZC_c, hnot, subCarry_notBorrow, decide_eq_true_iff]

/-- The complement within 24 bits takes its operand up to the highest word. -/
theorem not_toNat_add (b : Word) : (~~~b).toNat + b.toNat + 1 = 2 ^ 24 := by
  have hb := b.isLt
  rw [BitVec.toNat_not]
  omega

/-- The two rules of R112 are complements of each other. -/
theorem subCarry_borrow_eq_not (a b : Word) : subCarry .borrow a b = !subCarry .notBorrow a b :=
  (Bool.not_not _).symm

/-- Settles O20: `~b + 1` is `2^24 - b`, so the sum passes `2^24` exactly where `b ≤ a`. -/
theorem notBorrowIsTheCarryOfTheComplementSum : Obligations.NotBorrowIsTheCarryOfTheComplementSum := by
  intro a b
  have hnot := not_toNat_add b
  refine ⟨?_, subCarry_borrow_eq_not a b, ?_⟩
  · rw [subCarry_notBorrow, decide_eq_true_iff]
    omega
  · rw [BitVec.toNat_sub]
    congr 1
    omega

end Sys2Proof.Proofs.AddSub
end

section
/-! NOTur, ANDur, ORur and XORur (42_logic.md): the complement, and the three operations on each bit. -/

namespace Sys2Proof.Proofs.Logic

open Sys2Proof Sys2Proof.Machine Sys2Proof.Proofs.Frame Sys2Proof.Proofs.Copy Sys2Proof.Proofs.AddSub

/-- An instruction that commits a result with `z` to the one register it writes keeps `c` and all else but `pc`. -/
theorem commitZ_frame {i : Instr} {t : RegNum} {w : Word} {st : State} (hexec : exec i st = .next (st.commitZ t w))
    (hwritten : writtenRegs i st = [t]) :
    (st.commitZ t w).c = st.c ∧ KeepsBut [t] st (st.commitZ t w) ∧ Advanced st (st.commitZ t w) :=
  ⟨State.commitZ_c .., hwritten ▸ exec_next_keepsBut_written hexec, exec_next_advanced hexec⟩

/-- The zero flag of an inclusive or says both operands are zero (R122). -/
theorem isZero_or {a b : Word} : isZero (a ||| b) = true ↔ a.toNat = 0 ∧ b.toNat = 0 := by
  rw [isZero_iff_toNat, BitVec.toNat_or, Nat.or_eq_zero_iff]

/-- The zero flag of an exclusive or says the operands are equal (R123). -/
theorem isZero_xor {a b : Word} : isZero (a ^^^ b) = true ↔ a = b :=
  (isZero_iff _).trans BitVec.xor_eq_zero_iff

/-- Settles O21: NOTur commits the word that takes its operand up to the highest word, so zero exactly for that one. -/
theorem noturComplementsWithin24Bits : Obligations.NoturComplementsWithin24Bits := by
  intro t st
  have hexec : exec (.notur t) st = .next (st.commitZ t (~~~st.readDR t)) := rfl
  obtain ⟨hres, hz⟩ := commitZ_target_and_z st t (~~~st.readDR t)
  have hsum := not_toNat_add (st.readDR t)
  refine ⟨_, hexec, ?_, ?_, commitZ_frame hexec rfl⟩
  · rw [hres]
    omega
  · rw [hz]
    omega

/-- Settles O22: each of the three commits its operation on the operands before, bit by bit, and `z` of that word. -/
theorem logicActsOnEachBit : Obligations.LogicActsOnEachBit := by
  intro s t st
  refine ⟨?andur, ?orur, ?xorur⟩
  case andur =>
    have hexec : exec (.andur s t) st = .next (st.commitZ t (st.readDR t &&& st.readDR s)) := rfl
    obtain ⟨hres, hz⟩ := commitZ_target_and_z st t (st.readDR t &&& st.readDR s)
    refine ⟨_, hexec, fun i _ => ?_, ?_, commitZ_frame hexec rfl⟩
    · rw [hres, BitVec.toNat_and, Nat.testBit_and]
    · rw [hres, hz]
  case orur =>
    have hexec : exec (.orur s t) st = .next (st.commitZ t (st.readDR t ||| st.readDR s)) := rfl
    obtain ⟨hres, -⟩ := commitZ_target_and_z st t (st.readDR t ||| st.readDR s)
    refine ⟨_, hexec, fun i _ => ?_, isZero_or, commitZ_frame hexec rfl⟩
    rw [hres, BitVec.toNat_or, Nat.testBit_or]
  case xorur =>
    have hexec : exec (.xorur s t) st = .next (st.commitZ t (st.readDR t ^^^ st.readDR s)) := rfl
    obtain ⟨hres, -⟩ := commitZ_target_and_z st t (st.readDR t ^^^ st.readDR s)
    refine ⟨_, hexec, fun i _ => ?_, isZero_xor, commitZ_frame hexec rfl⟩
    rw [hres, BitVec.toNat_xor, Nat.testBit_xor]

end Sys2Proof.Proofs.Logic
end

section
/-! The shifts and rotates (43_shift_rotate.md): the amount and what lies outside its range (R134, R135), the values
(R130 to R133) and the carry (R136). -/

namespace Sys2Proof.Proofs.ShiftRotate

open Sys2Proof Sys2Proof.Machine Sys2Proof.Proofs.Frame Sys2Proof.Proofs.AddSub

/-! ### Which amounts complete -/

section
variable {op : ShiftOp} {f : Word → Nat → Word} {s t : RegNum} {st : State}

theorem shiftBy_of_amount_lt (h : (st.amount s).toNat < 24) :
    shiftBy op f s t st = .next (commitShift op s t (f (st.readDR t) (st.amount s).toNat) st) :=
  if_neg (mt outOfRange_iff.mp (Nat.not_le_of_lt h))

theorem shiftBy_of_le_amount (h : 24 ≤ (st.amount s).toNat) :
    shiftBy op f s t st = .fault (.softwareInterrupt .arithRange st) :=
  if_pos (outOfRange_iff.mpr h)

/-- A rotate completes for every amount under ROT_RANGE = mod24, and for 0 to 23 under any (R131, R133). -/
theorem rotateBy_of_mod24_or_amount_lt (h : st.cfg.rotRange = .mod24 ∨ (st.amount s).toNat < 24) :
    rotateBy op f s t st = .next (commitShift op s t (f (st.readDR t) ((st.amount s).toNat % 24)) st) := by
  obtain ⟨-, e⟩ | ⟨hout, hr, -⟩ | ⟨hout, hr, -⟩ := rotateBy_cases op f s t st
  · exact e
  all_goals
    rw [hr] at h
    exact absurd (h.resolve_left nofun) (Nat.not_lt_of_le hout)

theorem rotateBy_of_trap (hr : st.cfg.rotRange = .trap) (h : 24 ≤ (st.amount s).toNat) :
    rotateBy op f s t st = .fault (.softwareInterrupt .arithRange st) := by
  rw [rotateBy, outOfRange_iff.mpr h, hr]
  rfl

theorem rotateBy_of_refuse (hr : st.cfg.rotRange = .refuse) (h : 24 ≤ (st.amount s).toNat) :
    rotateBy op f s t st = .refused (.rotateOutOfRange st) := by
  rw [rotateBy, outOfRange_iff.mpr h, hr]

end

/-- Settles O31: out of range both shifts raise the interrupt before they write anything. -/
theorem shiftsOutOfRangeTrapWithNothingWritten : Obligations.ShiftsOutOfRangeTrapWithNothingWritten := by
  intro s t st h
  rw [← State.amount_toNat] at h
  exact ⟨shiftBy_of_le_amount h, shiftBy_of_le_amount h⟩

/-! ### The values -/

/-- What a shift or rotate that completes leaves: its result with `z` and `c`, and the frame of its target alone. -/
theorem commitShift_facts {i : Instr} {op : ShiftOp} {s t : RegNum} {r : Word} {st : State}
    (hexec : exec i st = .next (commitShift op s t r st)) (hwritten : writtenRegs i st = [t]) :
    (commitShift op s t r st).readDR t = r ∧
    ((commitShift op s t r st).z = true ↔ r.toNat = 0) ∧
    (commitShift op s t r st).c = shiftCarry st.cfg.shiftCarry op (st.readDR t) (st.amount s) st.c ∧
    KeepsBut [t] st (commitShift op s t r st) ∧ Advanced st (commitShift op s t r st) :=
  ⟨commitZC_readDR_target .., isZero_iff_toNat, rfl, hwritten ▸ exec_next_keepsBut_written hexec,
    exec_next_advanced hexec⟩

/-- Settles O23: SHLur commits its target times `2^k` modulo `2^24`. -/
theorem shlurMultipliesByThePowerOfTwo : Obligations.ShlurMultipliesByThePowerOfTwo := by
  intro s t st h
  rw [← State.amount_toNat] at h ⊢
  have hexec : exec (.shlur s t) st = .next (commitShift .shl s t (shiftLeft (st.readDR t) (st.amount s).toNat) st) :=
    shiftBy_of_amount_lt h
  obtain ⟨hres, hz, hrest⟩ := commitShift_facts hexec rfl
  refine ⟨_, hexec, ?_, ?_, hrest⟩
  · rw [hres, shiftLeft_toNat]
  · rw [hres, hz]

/-- Settles O24: SHRur commits its target divided by `2^k`. -/
theorem shrurDividesByThePowerOfTwo : Obligations.ShrurDividesByThePowerOfTwo := by
  intro s t st h
  rw [← State.amount_toNat] at h ⊢
  have hexec : exec (.shrur s t) st = .next (commitShift .shr s t (shiftRight (st.readDR t) (st.amount s).toNat) st) :=
    shiftBy_of_amount_lt h
  obtain ⟨hres, hz, hrest⟩ := commitShift_facts hexec rfl
  refine ⟨_, hexec, ?_, ?_, hrest⟩
  · rw [hres, shiftRight_toNat]
  · rw [hres, hz]

/-- A left rotate by any amount modulo 24 sends bit `i` to bit `(i + k) mod 24` (R131). -/
theorem rotl24_mod_bit (a : Word) (k : Nat) {i : Nat} (hi : i < 24) :
    (rotl24 a (k % 24)).getLsbD ((i + k) % 24) = a.getLsbD i := by
  rw [← Nat.add_mod_mod]
  exact rotl24_bit a (Nat.mod_lt k (by decide)) hi

/-- A right rotate by any amount modulo 24 sends bit `(i + k) mod 24` to bit `i` (R133). -/
theorem rotr24_mod_bit (a : Word) (k : Nat) {i : Nat} (hi : i < 24) :
    (rotr24 a (k % 24)).getLsbD i = a.getLsbD ((i + k) % 24) := by
  have hback : ((i + k) % 24 + (24 - k % 24)) % 24 = i := by omega
  rw [← rotr24_bit a (m := k % 24) (Nat.mod_lt (i + k) (by decide)), hback]

/-- No bit is lost in a left rotate, so its result is zero exactly if its operand is. -/
theorem rotl24_toNat_eq_zero_iff (a : Word) {m : Nat} (hm : m < 24) : (rotl24 a m).toNat = 0 ↔ a.toNat = 0 := by
  have zero_iff (w : Word) : w.toNat = 0 ↔ w = 0#24 := BitVec.toNat_inj (y := 0#24)
  rw [zero_iff, zero_iff]
  constructor
  · intro h
    refine BitVec.eq_of_getLsbD_eq fun i hi => ?_
    rw [← rotl24_bit a hm hi, h, BitVec.getLsbD_zero, BitVec.getLsbD_zero]
  · rintro rfl
    simp [rotl24]

theorem rotr24_toNat_eq_zero_iff (a : Word) (m : Nat) : (rotr24 a m).toNat = 0 ↔ a.toNat = 0 :=
  rotl24_toNat_eq_zero_iff a (Nat.mod_lt _ (by decide))

/-- Settles O25: ROLur commits its target rotated left by the amount modulo 24. -/
theorem rolurMovesEachBitUp : Obligations.RolurMovesEachBitUp := by
  intro s t st h
  rw [← State.amount_toNat] at h ⊢
  have hexec : exec (.rolur s t) st
      = .next (commitShift .rol s t (rotl24 (st.readDR t) ((st.amount s).toNat % 24)) st) :=
    rotateBy_of_mod24_or_amount_lt h
  obtain ⟨hres, hz, hrest⟩ := commitShift_facts hexec rfl
  refine ⟨_, hexec, fun i hi => ?_, ?_, hrest⟩
  · rw [hres, rotl24_mod_bit _ _ hi]
  · rw [hz, rotl24_toNat_eq_zero_iff _ (Nat.mod_lt _ (by decide))]

/-- Settles O26: RORur commits its target rotated right by the amount modulo 24. -/
theorem rorurMovesEachBitDown : Obligations.RorurMovesEachBitDown := by
  intro s t st h
  rw [← State.amount_toNat] at h ⊢
  have hexec : exec (.rorur s t) st
      = .next (commitShift .ror s t (rotr24 (st.readDR t) ((st.amount s).toNat % 24)) st) :=
    rotateBy_of_mod24_or_amount_lt h
  obtain ⟨hres, hz, hrest⟩ := commitShift_facts hexec rfl
  refine ⟨_, hexec, fun i hi => ?_, ?_, hrest⟩
  · rw [hres, rotr24_mod_bit _ _ hi]
  · rw [hz, rotr24_toNat_eq_zero_iff]

/-! ### The carry -/

theorem shiftCarry_lastBitOut_of_ne_zero (op : ShiftOp) (a : Word) {k : BitVec 5} (cOld : Bool) (hk : k ≠ 0) :
    shiftCarry .lastBitOut op a k cOld = lastBitOut op a k.toNat :=
  if_neg (mt BitVec.eq_of_toNat_eq hk)

theorem shiftCarry_keepOnZero_of_ne_zero (op : ShiftOp) (a : Word) {k : BitVec 5} (cOld : Bool) (hk : k ≠ 0) :
    shiftCarry .keepOnZero op a k cOld = lastBitOut op a k.toNat :=
  if_neg (mt BitVec.eq_of_toNat_eq hk)

/-- In the exact product, bit 24 is the last bit that a left shift moves out. -/
theorem mul_two_pow_testBit_24 (a : Word) {n : Nat} (hn : n ≤ 23) :
    (a.toNat * 2 ^ n).testBit 24 = a.getLsbD (24 - n) := by
  have hle : n ≤ 24 := by omega
  rw [Nat.testBit_mul_two_pow, decide_eq_true hle, Bool.true_and]
  rfl

theorem lastBitOut_rol (a : Word) (n : Nat) : lastBitOut .rol a n = a.getLsbD ((24 - n % 24) % 24) := by
  have hwrap : ((24 - n % 24) % 24 + n) % 24 = 0 := by omega
  rw [← rotl24_mod_bit a n (Nat.mod_lt _ (by decide)), hwrap]
  rfl

theorem lastBitOut_ror (a : Word) {n : Nat} (hn : n ≠ 0) : lastBitOut .ror a n = a.getLsbD ((n - 1) % 24) := by
  have hwrap : (n - 1) % 24 = (23 + n) % 24 := by omega
  rw [hwrap, ← rotr24_mod_bit a n (by decide)]
  rfl

/-- Settles O27: amount 0 moves no bit out; for the others the table's bit is read off the product or the rotated
word. -/
theorem shiftCarryIsTheLastBitOut : Obligations.ShiftCarryIsTheLastBitOut := by
  intro a k cOld
  have hlast (hk : k ≠ 0) (op : ShiftOp) : shiftCarry .lastBitOut op a k cOld = lastBitOut op a k.toNat :=
    shiftCarry_lastBitOut_of_ne_zero op a cOld hk
  refine ⟨?zero, ?keep, ?product, ?shifts, ?rotates⟩
  case zero =>
    rintro op rfl
    exact ⟨rfl, rfl⟩
  case keep =>
    intro op hk
    rw [hlast hk, shiftCarry_keepOnZero_of_ne_zero op a cOld hk]
  case product =>
    intro hle
    rw [mul_two_pow_testBit_24 a hle]
    by_cases hk : k = 0
    · subst hk
      exact (BitVec.getLsbD_of_ge a 24 (Nat.le_refl 24)).symm
    · exact hlast hk .shl
  case shifts =>
    intro hk _
    exact ⟨hlast hk .shl, hlast hk .shr⟩
  case rotates =>
    intro hk
    have hn : k.toNat ≠ 0 := fun e => hk (BitVec.eq_of_toNat_eq e)
    rw [hlast hk, hlast hk]
    exact ⟨rfl, lastBitOut_rol a _, rfl, lastBitOut_ror a hn⟩

/-! ### The amount -/

/-- The outcome with `w` put into register `s` of the state it carries, for the three kinds of outcome that a shift or
rotate has. -/
def outcomeWithDR (s : RegNum) (w : Word) : Outcome → Outcome
  | .next a => .next (a.writeDR s w)
  | .fault (.softwareInterrupt cause a) => .fault (.softwareInterrupt cause (a.writeDR s w))
  | .refused (.rotateOutOfRange a) => .refused (.rotateOutOfRange (a.writeDR s w))
  | other => other

/-- A commit to one register and a write of another do not see each other. -/
theorem commitZC_writeDR_comm {s t : RegNum} (hst : s ≠ t) (st : State) (w r : Word) (carry : Bool) :
    (st.writeDR s w).commitZC t r carry = (st.commitZC t r carry).writeDR s w := by
  refine State.ext_parts (fun i => ?_) rfl rfl rfl rfl rfl rfl rfl rfl
  rw [State.commitZC_readDR, State.readDR_writeDR, State.readDR_writeDR, State.commitZC_readDR]
  by_cases hi : i = t
  · subst hi
    rw [if_pos rfl, if_neg hst.symm, if_pos rfl]
  · rw [if_neg hi, if_neg hi]

section
variable {s t : RegNum} {st : State} {w : Word} (hst : s ≠ t) (hw : w.toNat % 32 = (st.amount s).toNat)
include hw

/-- Another value with the same low five bits in the source is the same amount (R134). -/
theorem amount_writeDR_of_low_bits : (st.writeDR s w).amount s = st.amount s := by
  apply BitVec.eq_of_toNat_eq
  rw [State.amount_toNat, State.readDR_writeDR_same, hw]

include hst

theorem commitShift_writeDR_source (op : ShiftOp) (r : Word) :
    commitShift op s t r (st.writeDR s w) = (commitShift op s t r st).writeDR s w := by
  rw [commitShift, amount_writeDR_of_low_bits hw, State.readDR_writeDR_ne hst.symm, commitZC_writeDR_comm hst]
  rfl

theorem shiftBy_writeDR_source (op : ShiftOp) (f : Word → Nat → Word) :
    shiftBy op f s t (st.writeDR s w) = outcomeWithDR s w (shiftBy op f s t st) := by
  have hamount := amount_writeDR_of_low_bits hw
  obtain ⟨hout, e⟩ | ⟨hin, e⟩ := shiftBy_cases op f s t st
  · rw [e, shiftBy_of_le_amount (hamount.symm ▸ hout)]
    rfl
  · rw [e, shiftBy_of_amount_lt (hamount.symm ▸ hin), hamount, State.readDR_writeDR_ne hst.symm,
      commitShift_writeDR_source hst hw]
    rfl

theorem rotateBy_writeDR_source (op : ShiftOp) (f : Word → Nat → Word) :
    rotateBy op f s t (st.writeDR s w) = outcomeWithDR s w (rotateBy op f s t st) := by
  have hamount := amount_writeDR_of_low_bits hw
  obtain ⟨hin, e⟩ | ⟨hout, hr, e⟩ | ⟨hout, hr, e⟩ := rotateBy_cases op f s t st
  · rw [e, rotateBy_of_mod24_or_amount_lt (hamount.symm ▸ hin.symm), hamount, State.readDR_writeDR_ne hst.symm,
      commitShift_writeDR_source hst hw]
    rfl
  · rw [e, rotateBy_of_trap (st := st.writeDR s w) hr (hamount.symm ▸ hout)]
    rfl
  · rw [e, rotateBy_of_refuse (st := st.writeDR s w) hr (hamount.symm ▸ hout)]
    rfl

theorem exec_writeDR_source {i : Instr} (hi : i ∈ [.shlur s t, .rolur s t, .shrur s t, .rorur s t]) :
    exec i (st.writeDR s w) = outcomeWithDR s w (exec i st) := by
  simp only [List.mem_cons, List.not_mem_nil, or_false] at hi
  obtain rfl | rfl | rfl | rfl := hi
  · exact shiftBy_writeDR_source hst hw ..
  · exact rotateBy_writeDR_source hst hw ..
  · exact shiftBy_writeDR_source hst hw ..
  · exact rotateBy_writeDR_source hst hw ..

end

/-- A shift by its amount alone: the interrupt from 24 on, the shifted value below. -/
theorem shiftBy_eq_ite (op : ShiftOp) (f : Word → Nat → Word) (s t : RegNum) (st : State) :
    shiftBy op f s t st = if 24 ≤ (st.amount s).toNat then .fault (.softwareInterrupt .arithRange st)
      else .next (commitShift op s t (f (st.readDR t) (st.amount s).toNat) st) :=
  if_congr outOfRange_iff rfl rfl

/-- Settles O37: the source is read through its amount alone, so a write of the same low five bits commutes with the
instruction. -/
theorem amountIsTheLowFiveBits : Obligations.AmountIsTheLowFiveBits := by
  intro s t st k hk
  obtain rfl : k = st.amount s := BitVec.eq_of_toNat_eq (hk.trans (State.amount_toNat st s).symm)
  exact ⟨shiftBy_eq_ite .., shiftBy_eq_ite .., fun hr => rotateBy_of_mod24_or_amount_lt (.inl hr),
    fun hr => rotateBy_of_mod24_or_amount_lt (.inl hr), fun w i hi hst hw => exec_writeDR_source hst hw hi⟩

end Sys2Proof.Proofs.ShiftRotate
end

section
/-! CMPur and TSTur (44_compare_test.md): the flags of a difference that is not written, and the test for zero. -/

namespace Sys2Proof.Proofs.CompareTest

open Sys2Proof Sys2Proof.Machine Sys2Proof.Proofs.Frame

/-- Under CMP_ORDER = t_minus_s the target is the minuend, as in SUBur (D9). -/
theorem compareCarry_tMinusS (rule : SubCarry) (a b : Word) : compareCarry .tMinusS rule a b = subCarry rule a b := rfl

/-- Under CMP_ORDER = s_minus_t the source is the minuend (R150, the first corner case). -/
theorem compareCarry_sMinusT (rule : SubCarry) (a b : Word) : compareCarry .sMinusT rule a b = subCarry rule b a := rfl

/-- CMPur takes `z` from the difference of the registers before; either order of the operands would give the same. -/
theorem exec_cmpur_next_z_iff {s t : RegNum} {st st' : State} (h : exec (.cmpur s t) st = .next st') :
    st'.z = true ↔ st.readDR t = st.readDR s := by
  cases h
  rw [State.advance_z, State.setC_z, State.setZ_z, isZero_sub]

theorem exec_cmpur_next_c {s t : RegNum} {st st' : State} (h : exec (.cmpur s t) st = .next st') :
    st'.c = compareCarry st.cfg.cmpOrder st.cfg.subCarry (st.readDR t) (st.readDR s) := by
  cases h
  rw [State.advance_c, State.setC_c]

/-- Settles O28: CMP_ORDER picks the minuend and SUB_CARRY says which order of minuend and subtrahend sets `c`; the
frame is that of an instruction that writes no register. -/
theorem cmpurWritesOnlyTheFlagsOfTheDifference : Obligations.CmpurWritesOnlyTheFlagsOfTheDifference := by
  intro s t st
  have hexec : exec (.cmpur s t) st = .next ((st.setZ (isZero (st.readDR t - st.readDR s))).setC
      (compareCarry st.cfg.cmpOrder st.cfg.subCarry (st.readDR t) (st.readDR s))).advance := rfl
  have hc := exec_cmpur_next_c hexec
  refine ⟨_, hexec, exec_next_keepsBut_written hexec, exec_next_advanced hexec, exec_cmpur_next_z_iff hexec,
    fun horder hrule => ?_, fun horder hrule => ?_, fun horder hrule => ?_, fun horder hrule => ?_⟩
  · rw [hc, horder, hrule, compareCarry_tMinusS, subCarry_borrow, decide_eq_true_iff]
  · rw [hc, horder, hrule, compareCarry_tMinusS, subCarry_notBorrow, decide_eq_true_iff]
  · rw [hc, horder, hrule, compareCarry_sMinusT, subCarry_borrow, decide_eq_true_iff]
  · rw [hc, horder, hrule, compareCarry_sMinusT, subCarry_notBorrow, decide_eq_true_iff]

/-- Settles O30: the next state is `z` taken from the target, and the advance of `pc`. -/
theorem tsturTestsForZero : Obligations.TsturTestsForZero := by
  intro t st
  have hexec : exec (.tstur t) st = .next (st.setZ (isZero (st.readDR t))).advance := rfl
  refine ⟨_, hexec, ?_, ?_, exec_next_keepsBut_written hexec, exec_next_advanced hexec⟩
  · rw [State.advance_z, State.setZ_z, isZero_iff_toNat]
  · rw [State.advance_c, State.setZ_c]

end Sys2Proof.Proofs.CompareTest
end

section
/-! The software interrupt (60_exceptions.md): which instructions raise it (R160), and that it is precise (R164). -/

namespace Sys2Proof.Proofs.Exceptions

open Sys2Proof Sys2Proof.Machine Sys2Proof.Proofs.ShiftRotate

/-! ### Which instructions raise it -/

/-- A shift that stops has raised the interrupt, and its amount is out of range (R135). -/
theorem shiftBy_fault {op : ShiftOp} {g : Word → Nat → Word} {s t : RegNum} {st : State} {f : Fault}
    (h : shiftBy op g s t st = .fault f) :
    f = .softwareInterrupt .arithRange st ∧ 24 ≤ (st.amount s).toNat := by
  obtain ⟨hout, e⟩ | ⟨-, e⟩ := shiftBy_cases op g s t st <;> rw [e] at h <;> cases h
  exact ⟨rfl, hout⟩

/-- A rotate that stops with a fault has raised the interrupt, which it does under ROT_RANGE = trap only (R131, R133;
log 12). -/
theorem rotateBy_fault {op : ShiftOp} {g : Word → Nat → Word} {s t : RegNum} {st : State} {f : Fault}
    (h : rotateBy op g s t st = .fault f) :
    f = .softwareInterrupt .arithRange st ∧ st.cfg.rotRange = .trap := by
  obtain ⟨-, e⟩ | ⟨-, hr, e⟩ | ⟨-, -, e⟩ := rotateBy_cases op g s t st <;> rw [e] at h <;> cases h
  exact ⟨rfl, hr⟩

/-- An instruction that stops with a fault has raised the interrupt on the state it started from; but for the rotates
under ROT_RANGE = trap, it is a shift out of range. -/
theorem exec_fault {i : Instr} {st : State} {f : Fault} (h : exec i st = .fault f) :
    f = .softwareInterrupt .arithRange st ∧
      ((∃ s t, (i = .shlur s t ∨ i = .shrur s t) ∧ 24 ≤ (st.amount s).toNat) ∨ st.cfg.rotRange = .trap) := by
  cases i with
  | nop | movur s t | mccur cc s t | addur s t | subur s t | notur t | andur s t | orur s t | xorur s t
  | cmpur s t | tstur t => cases h
  | shlur s t =>
    obtain ⟨hf, hout⟩ := shiftBy_fault h
    exact ⟨hf, .inl ⟨s, t, .inl rfl, hout⟩⟩
  | shrur s t =>
    obtain ⟨hf, hout⟩ := shiftBy_fault h
    exact ⟨hf, .inl ⟨s, t, .inr rfl, hout⟩⟩
  | rolur s t | rorur s t =>
    obtain ⟨hf, hr⟩ := rotateBy_fault h
    exact ⟨hf, .inr hr⟩

/-- Settles O32: an instruction that stops has raised the interrupt, under `mod24` only as a shift out of range, and
such a shift does raise it. -/
theorem onlyOutOfRangeShiftsRaiseTheInterrupt : Obligations.OnlyOutOfRangeShiftsRaiseTheInterrupt := by
  refine fun i st hmod => ⟨fun f h => ⟨st, (exec_fault h).left⟩, ?_, ?_⟩
  · rintro ⟨f, h⟩
    obtain ⟨-, ⟨s, t, hi, hout⟩ | htrap⟩ := exec_fault h
    · exact ⟨s, t, hi, State.amount_toNat st s ▸ hout⟩
    · exact absurd (hmod.symm.trans htrap) nofun
  · rintro ⟨s, t, hi, hout⟩
    obtain ⟨hshl, hshr⟩ := shiftsOutOfRangeTrapWithNothingWritten s t st hout
    obtain rfl | rfl := hi
    · exact ⟨_, hshl⟩
    · exact ⟨_, hshr⟩

/-! ### Precision -/

/-- A step that stops with a fault carries the state it started from: at the end of the program, or by the interrupt
(70_reset_and_hazards.md R196). -/
theorem step_fault {st : State} {f : Fault} (h : step st = .fault f) :
    f = .done st ∨ f = .softwareInterrupt .arithRange st := by
  simp only [step] at h
  split at h
  · simp only [State.endOfProgram] at h
    split at h <;> cases h
    exact .inl rfl
  · split at h
    · cases h
    · exact .inr (exec_fault h).left

theorem step_interrupt_carries_before {st x : State} {cause : Cause}
    (h : step st = .fault (.softwareInterrupt cause x)) : x = st := by
  obtain hdone | htrap := step_fault h
  · cases hdone
  · cases htrap
    rfl

/-- A run that stops with a fault has completed some steps before the one that stopped. -/
theorem run_fault {k : Nat} {st : State} {f : Fault} (h : st.run k = .fault f) :
    ∃ j < k, ∃ last, st.run j = .next last ∧ step last = .fault f := by
  induction k generalizing st with
  | zero => cases h
  | succ k ih =>
    rw [State.run_succ] at h
    cases hstep : step st with
    | next mid =>
      rw [hstep] at h
      obtain ⟨j, hj, last, hrun, hlast⟩ := ih h
      refine ⟨j + 1, Nat.succ_lt_succ hj, last, ?_, hlast⟩
      rw [State.run_succ, hstep]
      exact hrun
    | fault g =>
      rw [hstep] at h
      cases h
      exact ⟨0, Nat.succ_pos k, st, rfl, hstep⟩
    | refused r => rw [hstep] at h; cases h

/-- Settles O35: the step that stopped the run traps with the state it started from, which the completed steps left. -/
theorem trapStateIsThatOfTheCompletedInstructions : Obligations.TrapStateIsThatOfTheCompletedInstructions := by
  intro k st x cause h
  obtain ⟨j, hj, last, hrun, hstep⟩ := run_fault h
  obtain rfl := step_interrupt_carries_before hstep
  exact ⟨j, hj, hrun, hstep⟩

end Sys2Proof.Proofs.Exceptions
end

section
/-! Where a step and a run end (70_reset_and_hazards.md R196, R197): outside the program, on a refused word, and just
past the program after at most as many steps as it has words. -/

namespace Sys2Proof.Proofs.ResetAndHazards

open Sys2Proof Sys2Proof.Machine Sys2Proof.Proofs.Step Sys2Proof.Proofs.StateInvariants
  Sys2Proof.Proofs.InstructionMemory Sys2Proof.Proofs.Exceptions

/-! ### A step that does not execute -/

theorem step_eq_endOfProgram {st : State} (h : st.fetch = none) : step st = st.endOfProgram := by
  simp only [step, h]

/-- No word is fetched at an index outside the program, with or without the mark (R41, log 38). -/
theorem fetch_eq_none_of_index {st : State} (h : st.index < st.mem.base ∨ st.mem.endIndex ≤ st.index) :
    st.fetch = none := by
  cases hmark : st.pastTop with
  | true => simp only [State.fetch, hmark, if_true]
  | false =>
    rw [State.index_eq_pc hmark] at h
    simpa [State.fetch, hmark] using Memory.word?_eq_none_iff.mpr h

theorem endOfProgram_eq_done {st : State} (h : st.index = st.mem.endIndex) : st.endOfProgram = .fault (.done st) :=
  if_pos h

theorem endOfProgram_eq_refused {st : State} (h : st.index ≠ st.mem.endIndex) :
    st.endOfProgram = .refused (.pcOutOfProgram st) :=
  if_neg h

/-- A fetched word that the decoder refuses is refused with the decoder's reason (R196). -/
theorem step_eq_undecodable {st : State} {w : Word} {r : DecodeRefusal} (hfetch : st.fetch = some w)
    (hdecode : decode st.cfg.reservedNonzero w = .error r) : step st = .refused (.undecodable r st) := by
  simp only [step, hfetch, hdecode]

/-- Settles O13: outside the program, and with the mark, there is no word to fetch, so the index alone tells `Done` from
the refusal; a word that does not decode is refused before execution. -/
theorem stepStopsOutsideTheProgramAndOnRefusedWords : Obligations.StepStopsOutsideTheProgramAndOnRefusedWords := by
  refine fun st => ⟨fun hend => ?_, fun hout => ?_, fun hmark hend => ?_, fun w r hmark hword hdecode => ?_⟩
  · rw [step_eq_endOfProgram (fetch_eq_none_of_index (.inr hend.ge)), endOfProgram_eq_done hend]
  · have hne : st.index ≠ st.mem.endIndex := by rw [Memory.endIndex]; omega
    rw [step_eq_endOfProgram (fetch_eq_none_of_index (hout.imp_right Nat.le_of_lt)), endOfProgram_eq_refused hne]
  · rw [step_eq_endOfProgram_of_pastTop hmark, endOfProgram_eq_refused hend]
  · exact step_eq_undecodable (State.fetch_eq_some.mpr ⟨hmark, hword⟩) hdecode

/-- `Done` is the end of the program and nothing else: no instruction answers it (R196). -/
theorem step_done {st final : State} (h : step st = .fault (.done final)) :
    final = st ∧ st.index = st.mem.endIndex := by
  cases hfetch : st.fetch with
  | none =>
    rw [step_eq_endOfProgram hfetch, State.endOfProgram] at h
    split at h
    · next hend =>
      cases h
      exact ⟨rfl, hend⟩
    · cases h
  | some w =>
    cases hdecode : decode st.cfg.reservedNonzero w with
    | error r => rw [step_eq_undecodable hfetch hdecode] at h; cases h
    | ok i =>
      rw [step_eq_exec hfetch hdecode] at h
      obtain ⟨hf, -⟩ := exec_fault h
      cases hf

/-! ### A run that goes on -/

theorem run_succ_next {k : Nat} {st st' : State} (h : st.run (k + 1) = .next st') :
    ∃ mid, step st = .next mid ∧ mid.run k = .next st' := by
  rw [State.run_succ] at h
  cases hstep : step st with
  | next mid =>
    rw [hstep] at h
    exact ⟨mid, rfl, h⟩
  | fault f => rw [hstep] at h; cases h
  | refused r => rw [hstep] at h; cases h

/-- A step goes on only from an index within the program. -/
theorem step_next_index_mem {st st' : State} (h : step st = .next st') :
    st.mem.base ≤ st.index ∧ st.index < st.mem.endIndex := by
  obtain ⟨-, -, -, -, hmark, hbase, hend⟩ := step_next_frame h
  rw [State.index_eq_pc hmark]
  exact ⟨hbase, hend⟩

/-- The steps of a run that goes on count up through the program's indices, so there is room for all of them. -/
theorem run_next_index_add_le {k : Nat} {st st' : State} (hk : 0 < k) (h : st.run k = .next st') :
    st.index + k ≤ st.mem.endIndex := by
  induction k generalizing st with
  | zero => cases hk
  | succ k ih =>
    obtain ⟨mid, hstep, hrun⟩ := run_succ_next h
    obtain ⟨-, hlt⟩ := step_next_index_mem hstep
    obtain ⟨hmem, -⟩ := step_next_frame hstep
    obtain rfl | hpos := Nat.eq_zero_or_pos k
    · exact hlt
    · have hle := ih hpos hrun
      rw [step_next_index hstep, hmem] at hle
      omega

/-- At most as many steps of a run go on as the program has words (R197). -/
theorem run_next_le_length {k : Nat} {st st' : State} (h : st.run k = .next st') : k ≤ st.mem.prog.length := by
  cases k with
  | zero => exact Nat.zero_le _
  | succ k =>
    obtain ⟨mid, hstep, -⟩ := run_succ_next h
    obtain ⟨hbase, -⟩ := step_next_index_mem hstep
    have hle := run_next_index_add_le k.succ_pos h
    rw [Memory.endIndex] at hle
    omega

/-! ### The end of a safe run -/

/-- A run that ends in `Done` ends just past the program, with what no step writes as it was at the start. -/
theorem run_done {k : Nat} {st final : State} (h : st.run k = .fault (.done final)) :
    final.index = st.mem.endIndex ∧ final.mem = st.mem ∧ final.cfg = st.cfg ∧ final.n = st.n ∧ final.v = st.v := by
  obtain ⟨j, -, last, hrun, hstep⟩ := run_fault h
  obtain ⟨rfl, hend⟩ := step_done hstep
  obtain ⟨hmem, hcfg⟩ := run_next_keeps_mem_cfg hrun
  exact ⟨hmem ▸ hend, hmem, hcfg, run_next_keeps_n_v hrun⟩

/-- An index of PC_WIDTH bits is `pc` itself (log 35). -/
theorem pc_eq_index_of_lt {st : State} (h : st.index < 2 ^ st.cfg.pcWidth) : st.pc = st.index :=
  (State.index_eq_pc (Bool.eq_false_iff.mpr (mt State.pastTop_iff.mp h.ne))).symm

/-- Settles O45: a run cannot go on for one step more than the program has words, so a safe one has ended in `Done` by
then. -/
theorem safeRunsEndInDone : Obligations.SafeRunsEndInDone := by
  intro st hsafe
  obtain ⟨st', hnext⟩ | ⟨final, hdone⟩ := hsafe (st.mem.prog.length + 1)
  · exact absurd (run_next_le_length hnext) (Nat.not_succ_le_self _)
  · obtain ⟨hindex, hmem, hcfg, hn, hv⟩ := run_done hdone
    have hpc : st.mem.wf st.cfg.pcWidth → final.pc = st.mem.endIndex := fun hwf =>
      (pc_eq_index_of_lt (hindex ▸ hcfg ▸ hwf)).trans hindex
    exact ⟨final, ⟨_, hdone⟩, hindex, hpc, hmem, hcfg, hn, hv⟩

end Sys2Proof.Proofs.ResetAndHazards
end

section
/-! The invariant of a run and its length (70_reset_and_hazards.md R191, R196, R197): it holds at reset, every step
keeps it, and each step that goes on counts the index up by one. -/

namespace Sys2Proof.Proofs.RunInvariant

open Sys2Proof Sys2Proof.Machine Sys2Proof.Proofs.StateInvariants Sys2Proof.Proofs.InstructionMemory
  Sys2Proof.Proofs.ResetAndHazards

/-! ### Reset -/

/-- Settles O43: at reset the index and both ends of the empty program are 0. -/
theorem resetMeetsTheRunInvariant : Obligations.ResetMeetsTheRunInvariant :=
  ⟨⟨Nat.le_refl 0, Nat.le_refl 0⟩, reset_mem_wf _⟩

theorem reset_readDR (r : RegNum) : State.reset.readDR r = 0 :=
  Vector.getElem_replicate r.isLt

/-- The empty program ends at the index a run from reset starts at, so its first step is `Done` (log 33). -/
theorem step_reset : step State.reset = .fault (.done State.reset) := by
  obtain ⟨hdone, -⟩ := stepStopsOutsideTheProgramAndOnRefusedWords State.reset
  exact hdone rfl

/-- Settles O49: the parameters are those of `specConfig`, and the rest are the fields of the reset state. -/
theorem resetHoldsTheDefaultsAndNoProgram : Obligations.ResetHoldsTheDefaultsAndNoProgram :=
  ⟨rfl, rfl, rfl, rfl, rfl, rfl, rfl, rfl, reset_readDR, rfl, rfl, rfl, step_reset⟩

/-! ### Steps -/

/-- Where the program fits PC_WIDTH bits, the invariant keeps the mark clear and makes `pc` the index (log 35). -/
theorem pc_eq_index_of_inv {st : State} (hinv : st.Inv) (hwf : st.mem.wf st.cfg.pcWidth) :
    st.pastTop = false ∧ st.pc = st.index := by
  obtain ⟨-, hend⟩ := hinv
  have hlt : st.index < 2 ^ st.cfg.pcWidth := hend.trans_lt hwf
  exact ⟨Bool.eq_false_iff.mpr (mt State.pastTop_iff.mp hlt.ne), pc_eq_index_of_lt hlt⟩

/-- A step that goes on has left an index within the program, so the next index is at most just past it. -/
theorem step_next_inv {st st' : State} (h : step st = .next st') : st'.Inv := by
  obtain ⟨hbase, hlt⟩ := step_next_index_mem h
  obtain ⟨hmem, -⟩ := step_next_frame h
  rw [State.Inv, hmem, step_next_index h]
  exact ⟨hbase.trans (Nat.le_succ _), hlt⟩

/-- Settles O42: the step keeps the program and its width, so where they fit both states have their index as `pc`. -/
theorem stepKeepsTheRunInvariant : Obligations.StepKeepsTheRunInvariant := by
  intro st st' hinv h
  have hinv' : st'.Inv := step_next_inv h
  have hindex : st'.index = st.index + 1 := step_next_index h
  obtain ⟨hmem, hcfg, -⟩ := step_next_frame h
  refine ⟨hinv', hindex, fun hwf => ?_⟩
  have hwf' : st'.mem.wf st'.cfg.pcWidth := by rwa [hmem, hcfg]
  obtain ⟨-, hpc⟩ := pc_eq_index_of_inv hinv hwf
  obtain ⟨hmark', hpc'⟩ := pc_eq_index_of_inv hinv' hwf'
  exact ⟨hwf', hmark', by rw [hpc', hindex, hpc]⟩

/-! ### Runs -/

theorem run_next_inv {k : Nat} {st st' : State} (h : st.run k = .next st') : st.Inv → st'.Inv := by
  refine State.run_next_induct (P := fun a b => a.Inv → b.Inv) (fun _ => id) ?_ h
  exact fun _ _ _ hstep hrest _ => hrest (step_next_inv hstep)

/-- The steps of a run that goes on count the index up by their number (R27). -/
theorem run_next_index {k : Nat} {st st' : State} (h : st.run k = .next st') : st'.index = st.index + k := by
  induction k generalizing st with
  | zero => cases h; rfl
  | succ k ih =>
    obtain ⟨mid, hstep, hrun⟩ := run_succ_next h
    rw [ih hrun, step_next_index hstep]
    omega

/-- Settles O44: the index counts the steps, and there are no more of them than words for them to run. -/
theorem everyRunEndsWithinTheProgramLength : Obligations.EveryRunEndsWithinTheProgramLength := by
  refine fun st => ⟨fun k st' h => ?_, fun st' h => Nat.not_succ_le_self _ (run_next_le_length h)⟩
  obtain ⟨hmem, hcfg⟩ := run_next_keeps_mem_cfg h
  have hindex : st'.index = st.index + k := run_next_index h
  refine ⟨hindex, run_next_le_length h, fun hinv => ?_, fun hinv hwf => ?_⟩
  · obtain ⟨-, hend⟩ := run_next_inv h hinv
    exact hmem ▸ hend
  · obtain ⟨-, hpc⟩ := pc_eq_index_of_inv hinv hwf
    obtain ⟨-, hpc'⟩ := pc_eq_index_of_inv (run_next_inv h hinv) (by rwa [hmem, hcfg])
    rw [hpc', hindex, hpc]

end Sys2Proof.Proofs.RunInvariant
end

section
/-! The words of 30_encoding.md section 5 that encode no instruction (R70 to R72), and sample words of
95_test_vectors.md section 2. -/

namespace Sys2Proof.Proofs.Refusals

open Sys2Proof Sys2Proof.Proofs.Encoding

theorem opclassField_eq_zero_iff {w : Word} : opclassField w = 0 ↔ w.toNat < 0x100000 := by
  rw [← BitVec.toNat_inj, opclassField_toNat]
  exact Nat.div_eq_zero_iff_lt (by decide)

/-- A word below 0x0F0000 has opclass 0000 and the `subop` of an operation (R67). -/
theorem exists_op_of_lt {w : Word} (h : w.toNat < 0x0F0000) :
    opclassField w = 0 ∧ ∃ op, opOfSubop (subopField w) = some op := by
  refine ⟨opclassField_eq_zero_iff.mpr (by omega), Option.ne_none_iff_exists'.mp fun hnone => ?_⟩
  have h15 : (subopField w).toNat = 15 := opOfSubop_eq_none.mp hnone
  rw [subopField_toNat] at h15
  omega

/-- Settles O7: the ranges are those of the opclass and the `subop`; below them the reserved field is the only check
left, and a word that passes it is the encoding of what it decodes to. -/
theorem undefinedWordsAreRefusedByName : Obligations.UndefinedWordsAreRefusedByName := by
  refine fun rn w => ⟨fun hclass => ?_, fun ⟨hle, hlt⟩ => ?_, fun hlt hnone => ?_, fun hlt => ?_⟩
  · exact decode_of_opclass_ne_zero (mt opclassField_eq_zero_iff.mp hclass.not_gt)
  · refine decode_of_no_op (opclassField_eq_zero_iff.mpr hlt) (opOfSubop_eq_none.mpr ?_)
    rw [subopField_toNat]
    omega
  · obtain ⟨hclass, op, hop⟩ := exists_op_of_lt hlt
    have hdecode := decode_of_op (rn := .refuse) hclass hop
    split at hdecode
    · exact hdecode
    · obtain ⟨hencode, -⟩ := encodeOfDecodeIsTheWord w (op.instr (condField w) (sourceField w) (targetField w))
      exact absurd (hencode hdecode) (hnone _)
  · obtain ⟨hclass, op, hop⟩ := exists_op_of_lt hlt
    exact ⟨_, (decode_of_op hclass hop).trans (if_neg nofun)⟩

/-- Settles O10: each sample word is decoded as it stands. -/
theorem sampleWordsDecodeAsTheSpecWrites : Obligations.SampleWordsDecodeAsTheSpecWrites :=
  ⟨rfl, rfl, rfl, rfl, rfl, rfl, rfl, rfl, rfl, rfl, rfl⟩

end Sys2Proof.Proofs.Refusals
end

section
/-! The assembler lines of an instruction (30_encoding.md R75, R77): the checks on a line leave one line for each
instruction. -/

namespace Sys2Proof.Proofs.AssemblerLines

open Sys2Proof Sys2Proof.Proofs.Encoding Sys2Proof.Proofs.Assembler

/-- The line of an operation with its operands: those its format has (R75). -/
theorem disassemble_instr (op : Op) (cc : CondSel) (s t : RegNum) :
    disassemble (op.instr cc s t) =
      ⟨op, if op.format.hasCond then some cc.toNat else none, if op.format.hasSource then some s.val else none,
        if op.format.hasTarget then some t.val else none⟩ := by
  cases op <;> rfl

/-- An operand written exactly where the format has its field is the number put into the field. -/
theorem ite_some_getD {o : Option Nat} {has : Bool} (hfit : o.isSome = has) :
    (if has then some (o.getD 0) else none) = o := by
  subst hfit
  cases o <;> rfl

theorem getD_lt_of_inRange {o : Option Nat} (h : o.all (· < 16) = true) : o.getD 0 < 16 := by
  cases o with
  | none => decide
  | some m => exact of_decide_eq_true h

/-- The four checks on a line. -/
theorem wellFormed_iff {l : AsmLine} :
    l.wellFormed = true ↔
      (l.cc.isSome = l.op.format.hasCond ∧ l.ds.isSome = l.op.format.hasSource ∧
        l.dt.isSome = l.op.format.hasTarget) ∧
      l.cc.all (· < 16) = true ∧ l.ds.all (· < 16) = true ∧ l.dt.all (· < 16) = true := by
  simp only [AsmLine.wellFormed, AsmLine.operandsFit, AsmLine.condInRange, AsmLine.sourceInRange,
    AsmLine.targetInRange, Bool.and_eq_true, beq_iff_eq, and_assoc]

/-- What a line assembles to says everything that the line says. -/
theorem disassemble_of_assemble {l : AsmLine} {i : Instr} (h : assemble l = some i) : disassemble i = l := by
  obtain ⟨hwf, hi⟩ := Option.ite_none_right_eq_some.mp h
  obtain ⟨⟨hcc, hds, hdt⟩, hccLt, hdsLt, hdtLt⟩ := wellFormed_iff.mp hwf
  obtain rfl := Option.some.inj hi
  have hccNat : (BitVec.ofNat 4 (l.cc.getD 0)).toNat = l.cc.getD 0 := Nat.mod_eq_of_lt (getD_lt_of_inRange hccLt)
  have hdsNat : (Fin.ofNat 16 (l.ds.getD 0)).val = l.ds.getD 0 := Nat.mod_eq_of_lt (getD_lt_of_inRange hdsLt)
  have hdtNat : (Fin.ofNat 16 (l.dt.getD 0)).val = l.dt.getD 0 := Nat.mod_eq_of_lt (getD_lt_of_inRange hdtLt)
  rw [disassemble_instr, hccNat, hdsNat, hdtNat, ite_some_getD hcc, ite_some_getD hds, ite_some_getD hdt]

/-- Settles O9: the line read off an instruction is well formed and assembles to it, and every line that does is read
off it. -/
theorem assembleOfDisassembleIsTheInstruction : Obligations.AssembleOfDisassembleIsTheInstruction :=
  fun i => ⟨wellFormed_disassemble i, assemble_disassemble i, fun _ h => (disassemble_of_assemble h).symm⟩

end Sys2Proof.Proofs.AssemblerLines
end

section
/-! The model's loader (70_reset_and_hazards.md R191; log 33): what it places at `pc` the next step runs. -/

namespace Sys2Proof.Proofs.Loader

open Sys2Proof Sys2Proof.Machine Sys2Proof.Proofs.Step Sys2Proof.Proofs.Encoding

/-- The word loaded at `pc` is the one fetched there. -/
theorem withFetchWord_fetch (st : State) (nbits w : Nat) :
    (st.withFetchWord nbits w).fetch = some (BitVec.ofNat 24 (w % 2 ^ nbits)) :=
  State.fetch_eq_some.mpr ⟨rfl, Memory.place_word? ..⟩

theorem ofNat_toNat_mod (w : Word) : BitVec.ofNat 24 (w.toNat % 2 ^ 24) = w := by
  rw [Nat.mod_eq_of_lt w.isLt, BitVec.ofNat_toNat, BitVec.setWidth_eq]

/-- Settles O14: the loaded word is fetched and decodes to its instruction, and the loader writes the memory and the
mark alone. -/
theorem placedInstructionRunsNext : Obligations.PlacedInstructionRunsNext := by
  intro st i
  refine ⟨step_eq_exec (withFetchWord_fetch st 24 _) ?_, rfl⟩
  rw [ofNat_toNat_mod]
  exact decodeOfEncodeIsTheInstruction _ i

end Sys2Proof.Proofs.Loader
end

section
/-! How an instruction can end (60_exceptions.md R160 to R163, 43_shift_rotate.md R131, R133), and who keeps `c`
(10_state.md R30). -/

namespace Sys2Proof.Proofs.Outcomes

open Sys2Proof Sys2Proof.Machine Sys2Proof.Proofs.ShiftRotate Sys2Proof.Proofs.Exceptions Sys2Proof.Proofs.Frame
  Sys2Proof.Proofs.Copy

/-! ### Stops -/

/-- Settles O33: either alternative of ROT_RANGE stops a rotate by 24 to 31 before it writes anything. -/
theorem rotatesOutOfRangeFollowRotRange : Obligations.RotatesOutOfRangeFollowRotRange := by
  intro s t st h
  rw [← State.amount_toNat] at h
  exact ⟨fun htrap => ⟨rotateBy_of_trap htrap h, rotateBy_of_trap htrap h⟩,
    fun hrefuse => ⟨rotateBy_of_refuse hrefuse h, rotateBy_of_refuse hrefuse h⟩⟩

/-- A shift is never refused: it completes or traps (R135). -/
theorem shiftBy_ne_refused {op : ShiftOp} {f : Word → Nat → Word} {s t : RegNum} {st : State} {r : Refusal} :
    shiftBy op f s t st ≠ .refused r := by
  obtain ⟨-, e⟩ | ⟨-, e⟩ := shiftBy_cases op f s t st <;> rw [e] <;> exact nofun

/-- A rotate is refused under ROT_RANGE = refuse only (log 12). -/
theorem rotateBy_refused {op : ShiftOp} {f : Word → Nat → Word} {s t : RegNum} {st : State} {r : Refusal}
    (h : rotateBy op f s t st = .refused r) : st.cfg.rotRange = .refuse := by
  obtain ⟨-, e⟩ | ⟨-, -, e⟩ | ⟨-, hr, -⟩ := rotateBy_cases op f s t st
  · cases e.symm.trans h
  · cases e.symm.trans h
  · exact hr

/-- The only refusal of an instruction is that of a rotate under ROT_RANGE = refuse. -/
theorem exec_refused {i : Instr} {st : State} {r : Refusal} (h : exec i st = .refused r) :
    st.cfg.rotRange = .refuse := by
  cases i with
  | nop | movur s t | mccur cc s t | addur s t | subur s t | notur t | andur s t | orur s t | xorur s t
  | cmpur s t | tstur t => cases h
  | shlur s t | shrur s t => exact absurd h shiftBy_ne_refused
  | rolur s t | rorur s t => exact rotateBy_refused h

/-- Settles O34: an instruction that completes advances, one that faults has raised the interrupt, and under `mod24`
none is refused. -/
theorem everyInstructionCompletesOrTraps : Obligations.EveryInstructionCompletesOrTraps := by
  intro i st hmod
  cases h : exec i st with
  | next st' => exact .inl ⟨st', rfl, exec_next_advanced h⟩
  | fault f =>
    obtain ⟨rfl, -⟩ := exec_fault h
    exact .inr rfl
  | refused r => cases hmod.symm.trans (exec_refused h)

/-! ### Who keeps `c` -/

theorem exec_mccur_next_c {cc : CondSel} {s t : RegNum} {st st' : State} (h : exec (.mccur cc s t) st = .next st') :
    st'.c = st.c := by
  cases hc : st.holds cc with
  | true =>
    rw [exec_mccur_of_holds s t hc] at h
    cases h
    rfl
  | false =>
    rw [exec_mccur_of_not_holds s t hc] at h
    cases h
    exact notCopied_c s st

/-- Settles O40: each of these instructions commits without `c`, tests, or only advances. -/
theorem flagTableMarksWhoKeepsC : Obligations.FlagTableMarksWhoKeepsC := by
  intro cc s t st st' i hi h
  simp only [List.mem_cons, List.not_mem_nil, or_false] at hi
  obtain rfl | rfl | rfl | rfl | rfl | rfl | rfl | rfl := hi
  · cases h
    exact ⟨rfl, fun _ => rfl⟩
  case inr.inr.inl => exact ⟨exec_mccur_next_c h, nofun⟩
  all_goals
    cases h
    exact ⟨rfl, nofun⟩

end Sys2Proof.Proofs.Outcomes
end

section
/-! The register access table (10_state.md R25): what an instruction leaves depends on the registers it reads, the flags
and the parameters alone. -/

namespace Sys2Proof.Proofs.RegisterAccess

open Sys2Proof Sys2Proof.Machine Sys2Proof.Proofs.ShiftRotate Sys2Proof.Proofs.Frame Sys2Proof.Proofs.Copy

/-- Two outcomes from two states agree: both complete, alike in `z`, `c` and the registers listed, or both stop alike,
carrying the state each started from. -/
def OutcomesAgree (regs : List RegNum) (st₁ st₂ : State) (o₁ o₂ : Outcome) : Prop :=
  (∃ a b, o₁ = .next a ∧ o₂ = .next b ∧ a.z = b.z ∧ a.c = b.c ∧ ∀ r ∈ regs, a.readDR r = b.readDR r) ∨
  (o₁ = .fault (.softwareInterrupt .arithRange st₁) ∧ o₂ = .fault (.softwareInterrupt .arithRange st₂)) ∨
  (o₁ = .refused (.rotateOutOfRange st₁) ∧ o₂ = .refused (.rotateOutOfRange st₂))

section
variable {st₁ st₂ : State}

/-- Completions that write no register agree where their flags do. -/
theorem outcomesAgree_flags {a b : State} (hz : a.z = b.z) (hc : a.c = b.c) :
    OutcomesAgree [] st₁ st₂ (.next a) (.next b) :=
  .inl ⟨a, b, rfl, rfl, hz, hc, nofun⟩

theorem outcomesAgree_commitZ {t : RegNum} {w₁ w₂ : Word} (hc : st₁.c = st₂.c) (hw : w₁ = w₂) :
    OutcomesAgree [t] st₁ st₂ (.next (st₁.commitZ t w₁)) (.next (st₂.commitZ t w₂)) := by
  subst hw
  refine .inl ⟨_, _, rfl, rfl, rfl, hc, fun r hr => ?_⟩
  rw [List.mem_singleton.mp hr, (commitZ_target_and_z ..).left, (commitZ_target_and_z ..).left]

theorem outcomesAgree_commitZC {t : RegNum} {w₁ w₂ : Word} {c₁ c₂ : Bool} (hw : w₁ = w₂) (hc : c₁ = c₂) :
    OutcomesAgree [t] st₁ st₂ (.next (st₁.commitZC t w₁ c₁)) (.next (st₂.commitZC t w₂ c₂)) := by
  subst hw hc
  refine .inl ⟨_, _, rfl, rfl, rfl, rfl, fun r hr => ?_⟩
  rw [List.mem_singleton.mp hr, AddSub.commitZC_readDR_target, AddSub.commitZC_readDR_target]

section
variable {s t : RegNum} (hc : st₁.c = st₂.c) (hcfg : st₁.cfg = st₂.cfg) (hamount : st₁.amount s = st₂.amount s)
  (ht : st₁.readDR t = st₂.readDR t)
include hc hcfg hamount ht

theorem outcomesAgree_commitShift (op : ShiftOp) {w₁ w₂ : Word} (hw : w₁ = w₂) :
    OutcomesAgree [t] st₁ st₂ (.next (commitShift op s t w₁ st₁)) (.next (commitShift op s t w₂ st₂)) :=
  outcomesAgree_commitZC hw (by rw [hc, hcfg, hamount, ht])

theorem outcomesAgree_shiftBy (op : ShiftOp) (f : Word → Nat → Word) :
    OutcomesAgree [t] st₁ st₂ (shiftBy op f s t st₁) (shiftBy op f s t st₂) := by
  obtain ⟨hout, e⟩ | ⟨hin, e⟩ := shiftBy_cases op f s t st₁
  · exact .inr (.inl ⟨e, shiftBy_of_le_amount (hamount ▸ hout)⟩)
  · rw [e, shiftBy_of_amount_lt (hamount ▸ hin)]
    exact outcomesAgree_commitShift hc hcfg hamount ht op (by rw [hamount, ht])

theorem outcomesAgree_rotateBy (op : ShiftOp) (f : Word → Nat → Word) :
    OutcomesAgree [t] st₁ st₂ (rotateBy op f s t st₁) (rotateBy op f s t st₂) := by
  obtain ⟨hin, e⟩ | ⟨hout, hr, e⟩ | ⟨hout, hr, e⟩ := rotateBy_cases op f s t st₁
  · rw [e, rotateBy_of_mod24_or_amount_lt (hamount ▸ hcfg ▸ hin.symm)]
    exact outcomesAgree_commitShift hc hcfg hamount ht op (by rw [hamount, ht])
  · exact .inr (.inl ⟨e, rotateBy_of_trap (hcfg ▸ hr) (hamount ▸ hout)⟩)
  · exact .inr (.inr ⟨e, rotateBy_of_refuse (hcfg ▸ hr) (hamount ▸ hout)⟩)

end

section
variable (hz : st₁.z = st₂.z) (hn : st₁.n = st₂.n) (hc : st₁.c = st₂.c) (hv : st₁.v = st₂.v)
  (hcfg : st₁.cfg = st₂.cfg)
include hz hn hc hv hcfg

/-- A condition is a matter of the flags and the parameters (R33). -/
theorem holds_congr (cc : CondSel) : st₁.holds cc = st₂.holds cc := by
  rw [State.holds, State.holds, hz, hn, hc, hv, hcfg]

theorem writtenRegs_congr (i : Instr) : writtenRegs i st₁ = writtenRegs i st₂ := by
  cases i with
  | mccur cc s t => rw [writtenRegs, writtenRegs, holds_congr hz hn hc hv hcfg cc]
  | _ => rfl

/-- MCCur reads its source to copy it, or for `z` under MCC_FALSE = z_from_source (log 13). -/
theorem outcomesAgree_mccur {cc : CondSel} {s t : RegNum} (h : readsAgree (.mccur cc s t) st₁ st₂) :
    OutcomesAgree (writtenRegs (.mccur cc s t) st₁) st₁ st₂ (exec (.mccur cc s t) st₁) (exec (.mccur cc s t) st₂) := by
  have hholds := holds_congr hz hn hc hv hcfg cc
  cases hcond : st₁.holds cc with
  | true =>
    rw [exec_mccur_of_holds s t hcond, exec_mccur_of_holds s t (hholds ▸ hcond), writtenRegs, if_pos hcond]
    exact outcomesAgree_commitZ hc (h (.inl hcond))
  | false =>
    rw [exec_mccur_of_not_holds s t hcond, exec_mccur_of_not_holds s t (hholds ▸ hcond), writtenRegs,
      if_neg (Bool.eq_false_iff.mp hcond)]
    refine outcomesAgree_flags ?_ (by rw [notCopied_c, notCopied_c, hc])
    rw [notCopied_z, notCopied_z, ← hcfg, hz]
    cases hfalse : st₁.cfg.mccFalse with
    | nothing => rfl
    | zFromSource => rw [h (.inr hfalse)]

/-- The outcomes of an instruction agree from states that agree on what it reads. -/
theorem exec_outcomesAgree {i : Instr} (h : readsAgree i st₁ st₂) :
    OutcomesAgree (writtenRegs i st₁) st₁ st₂ (exec i st₁) (exec i st₂) := by
  cases i with
  | nop => exact outcomesAgree_flags hz hc
  | tstur t => exact outcomesAgree_flags (congrArg isZero h) hc
  | mccur cc s t => exact outcomesAgree_mccur hz hn hc hv hcfg h
  | movur s t => exact outcomesAgree_commitZ hc h
  | notur t => exact outcomesAgree_commitZ hc (congrArg (~~~·) h)
  | andur s t | orur s t | xorur s t =>
    obtain ⟨hs, ht⟩ := h
    exact outcomesAgree_commitZ hc (by rw [hs, ht])
  | addur s t =>
    obtain ⟨hs, ht⟩ := h
    exact outcomesAgree_commitZC (by rw [hs, ht]) (by rw [hs, ht])
  | subur s t =>
    obtain ⟨hs, ht⟩ := h
    exact outcomesAgree_commitZC (by rw [hs, ht]) (by rw [hs, ht, hcfg])
  | cmpur s t =>
    obtain ⟨hs, ht⟩ := h
    refine outcomesAgree_flags (congrArg isZero (by rw [hs, ht])) ?_
    rw [CompareTest.exec_cmpur_next_c rfl, CompareTest.exec_cmpur_next_c rfl, hs, ht, hcfg]
  | shlur s t | shrur s t =>
    obtain ⟨hamount, ht⟩ := h
    exact outcomesAgree_shiftBy hc hcfg hamount ht ..
  | rolur s t | rorur s t =>
    obtain ⟨hamount, ht⟩ := h
    exact outcomesAgree_rotateBy hc hcfg hamount ht ..

end
end

/-- Settles O36: the outcomes agree, and the two states write the same registers, so the frame keeps the others. -/
theorem instructionsReadAndWriteOnlyTheirRegisters : Obligations.InstructionsReadAndWriteOnlyTheirRegisters := by
  intro i st₁ st₂ hz hn hc hv hcfg h
  obtain ⟨a, b, ha, hb, hza, hca, hregs⟩ | hstop := exec_outcomesAgree hz hn hc hv hcfg h
  · refine .inl ⟨a, b, ha, hb, hza, hca, hregs, fun r hr => ⟨exec_next_keeps_unwritten ha hr, ?_⟩⟩
    exact exec_next_keeps_unwritten hb (writtenRegs_congr hz hn hc hv hcfg i ▸ hr)
  · exact .inr hstop

end Sys2Proof.Proofs.RegisterAccess
end

section
/-! The algebra of the instructions (95_test_vectors.md section 5): CMPur against SUBur, rotates and complements that
undo each other, and constants from any register (30_encoding.md R78). -/

namespace Sys2Proof.Proofs.Algebra

open Sys2Proof Sys2Proof.Machine Sys2Proof.Proofs.Frame Sys2Proof.Proofs.ShiftRotate Sys2Proof.Proofs.AddSub
  Sys2Proof.Proofs.Copy

/-! ### CMPur and SUBur -/

/-- A commit is the write of its word apart from the flags and the advance. -/
theorem commitZC_eq_writeDR (st : State) (t : RegNum) (w : Word) (carry : Bool) :
    st.commitZC t w carry = ((st.setZ (isZero w)).setC carry).advance.writeDR t w := rfl

theorem writeDR_writeDR_readDR (st : State) (t : RegNum) (w : Word) :
    (st.writeDR t w).writeDR t (st.readDR t) = st := by
  refine State.ext_parts (fun r => ?_) rfl rfl rfl rfl rfl rfl rfl rfl
  rw [State.readDR_writeDR, State.readDR_writeDR]
  by_cases hr : r = t
  · rw [if_pos hr, hr]
  · rw [if_neg hr, if_neg hr]

/-- Settles O29: under CMP_ORDER = t_minus_s both take their flags from the same difference, which SUBur writes. -/
theorem cmpurFlagsAreThoseOfSubur : Obligations.CmpurFlagsAreThoseOfSubur := by
  intro s t st horder
  have hcmp : exec (.cmpur s t) st = .next ((st.setZ (isZero (st.readDR t - st.readDR s))).setC
      (subCarry st.cfg.subCarry (st.readDR t) (st.readDR s))).advance := by
    rw [← CompareTest.compareCarry_tMinusS, ← horder]
    rfl
  refine ⟨_, _, hcmp, rfl, (commitZC_eq_writeDR ..).symm, ?_⟩
  rw [commitZC_eq_writeDR]
  exact writeDR_writeDR_readDR (State.advance _) t _

/-! ### Instructions that undo each other -/

/-- Two instructions that write the same one register restore all registers where they restore that one. -/
theorem dr_restored {i j : Instr} {t : RegNum} {st a b : State} (ha : exec i st = .next a) (hb : exec j a = .next b)
    (hi : writtenRegs i st = [t]) (hj : writtenRegs j a = [t]) (ht : b.readDR t = st.readDR t) : b.dr = st.dr := by
  refine Vector.ext fun k hk => ?_
  change b.readDR ⟨k, hk⟩ = st.readDR ⟨k, hk⟩
  by_cases hr : (⟨k, hk⟩ : RegNum) = t
  · rw [hr, ht]
  · rw [exec_next_keeps_unwritten hb (hj ▸ mt List.mem_singleton.mp hr),
      exec_next_keeps_unwritten ha (hi ▸ mt List.mem_singleton.mp hr)]

/-- A right rotate undoes a left rotate by the same amount (R133). -/
theorem rotr24_rotl24 (a : Word) (k : Nat) : rotr24 (rotl24 a (k % 24)) (k % 24) = a := by
  refine BitVec.eq_of_getLsbD_eq fun i hi => ?_
  rw [rotr24_mod_bit _ _ hi, rotl24_mod_bit _ _ hi]

/-- A left rotate undoes a right rotate by the same amount: bit `i` is where bit `i - k` goes. -/
theorem rotl24_rotr24 (a : Word) (k : Nat) : rotl24 (rotr24 a (k % 24)) (k % 24) = a := by
  refine BitVec.eq_of_getLsbD_eq fun i hi => ?_
  have hfrom : (i + (24 - k % 24)) % 24 < 24 := Nat.mod_lt _ (by decide)
  have hback : ((i + (24 - k % 24)) % 24 + k) % 24 = i := by omega
  rw [← hback, rotl24_mod_bit _ _ hfrom, rotr24_mod_bit _ _ hfrom]

/-- Two rotates with the same amount register, the second undoing the first on every word, restore all registers. -/
theorem rotates_restore {i j : Instr} {op op' : ShiftOp} {f g : Word → Nat → Word} {s t : RegNum} {st : State}
    (hst : s ≠ t) (hmod : st.cfg.rotRange = .mod24)
    (hi : ∀ st, exec i st = rotateBy op f s t st ∧ writtenRegs i st = [t])
    (hj : ∀ st, exec j st = rotateBy op' g s t st ∧ writtenRegs j st = [t])
    (hundo : ∀ w k, g (f w (k % 24)) (k % 24) = w) :
    ∃ a b, exec i st = .next a ∧ exec j a = .next b ∧ b.dr = st.dr := by
  obtain ⟨a, hdef⟩ : ∃ a, a = commitShift op s t (f (st.readDR t) ((st.amount s).toNat % 24)) st := ⟨_, rfl⟩
  have ha : exec i st = .next a := by
    rw [(hi st).left, rotateBy_of_mod24_or_amount_lt (.inl hmod), hdef]
  have hmod' : a.cfg.rotRange = .mod24 := by rw [hdef]; exact hmod
  have hb := (hj a).left.trans (rotateBy_of_mod24_or_amount_lt (.inl hmod'))
  refine ⟨a, _, ha, hb, dr_restored ha hb (hi st).right (hj a).right ?_⟩
  have hs : a.readDR s = st.readDR s := by rw [hdef]; exact commitZC_readDR_ne st _ _ hst
  have ht : a.readDR t = f (st.readDR t) ((st.amount s).toNat % 24) := by rw [hdef]; exact commitZC_readDR_target ..
  have hamount : a.amount s = st.amount s := by rw [State.amount, State.amount, hs]
  rw [commitShift, commitZC_readDR_target, ht, hamount, hundo]

/-- Settles O46: the amount register is not the target, so both rotates are by the same amount. -/
theorem rotatesUndoEachOther : Obligations.RotatesUndoEachOther := by
  intro s t st hst hmod
  exact ⟨rotates_restore hst hmod (fun _ => ⟨rfl, rfl⟩) (fun _ => ⟨rfl, rfl⟩) rotr24_rotl24,
    rotates_restore hst hmod (fun _ => ⟨rfl, rfl⟩) (fun _ => ⟨rfl, rfl⟩) rotl24_rotr24⟩

/-- Settles O47: the complement of the complement is the operand, and the other source is still there for the second
XORur. -/
theorem notAndXorTwiceRestore : Obligations.NotAndXorTwiceRestore := by
  refine fun s t st => ⟨⟨_, _, rfl, rfl, dr_restored (i := .notur t) (j := .notur t) rfl rfl rfl rfl ?_⟩,
    fun hst => ⟨_, _, rfl, rfl, dr_restored (i := .xorur s t) (j := .xorur s t) rfl rfl rfl rfl ?_⟩⟩
  · rw [(commitZ_target_and_z ..).left, (commitZ_target_and_z ..).left, BitVec.not_not]
  · rw [(commitZ_target_and_z ..).left, (commitZ_target_and_z ..).left, commitZ_readDR_ne st _ hst, BitVec.xor_assoc,
      BitVec.xor_self, BitVec.xor_zero]

/-! ### Constants -/

/-- XORur or SUBur of a register with itself leaves zero there, with `z` (R78). -/
theorem exec_self_zero {x : RegNum} {i : Instr} (hi : i ∈ [.xorur x x, .subur x x]) (st : State) :
    ∃ a, exec i st = .next a ∧ (a.readDR x).toNat = 0 ∧ a.z = true := by
  simp only [List.mem_cons, List.not_mem_nil, or_false] at hi
  obtain rfl | rfl := hi
  · refine ⟨_, rfl, ?_, Logic.isZero_xor.mpr rfl⟩
    rw [(commitZ_target_and_z ..).left, BitVec.xor_self]
    rfl
  · refine ⟨_, rfl, ?_, isZero_sub.mpr rfl⟩
    rw [commitZC_readDR_target, BitVec.sub_self]
    rfl

/-- Settles O48: NOTur takes the zero made first to the highest word. -/
theorem zeroAndOnesFromAnyRegister : Obligations.ZeroAndOnesFromAnyRegister := by
  intro x st i hi
  obtain ⟨a, ha, hzero, hz⟩ := exec_self_zero hi st
  obtain ⟨b, hb, hones, hzb, -⟩ := Logic.noturComplementsWithin24Bits x a
  rw [hzero] at hones hzb
  exact ⟨a, b, ha, hzero, hz, hb, hones, Bool.eq_false_iff.mpr (mt hzb.mp (by decide))⟩

end Sys2Proof.Proofs.Algebra
end
